-- ==== Sys2Proof/Word.lean ====
section
/-! DEFINITION. The word types of the register master (spec/00_scope.md R7, R9). Every width below is a
parameter of Table P1: an 8-bit byte of a frame, a 16-bit device register (`DATA_W`), the 24-bit wire frame
(`FRAME_BYTES` bytes), the 44-bit host command word and the 32-bit response word (`CMD_W`, `RSP_W`). -/

namespace Sys2Proof

/-- One byte of a frame, one reply byte, one torque code, or the 8-bit address operand (R85). -/
abbrev Byte := BitVec 8

/-- The value of one device register, `DATA_W = 16` (R29). -/
abbrev Reg16 := BitVec 16

/-- An ampere operand, or the response word, `RSP_W = 32` (R88, R89). -/
abbrev Word32 := BitVec 32

/-- The host command word, `CMD_W = 44` (R86). -/
abbrev CmdWord := BitVec 44

/-- The wire frame read as one word `F`, `F[23]` first on the wire (R81). -/
abbrev FrameWord := BitVec 24

/-- The level of a pin or a line: `true` is 1, `false` is 0 (R23, R24). -/
abbrev Level := Bool

end Sys2Proof
end

