-- ==== Sys2Proof/Config.lean ====
section
/-! DEFINITION. What is fixed for the machine: the constants of Table P1 (spec/00_scope.md R7), the device
handle's type and value (spec/10_state.md R21, R22), and the free values: constants with no body, each a
behaviour that spec/93_implementation_defined.md treats as `any value` or `parameter`. A claim that mentions
one of them holds whatever its value is. -/

namespace Sys2Proof

/-! ### The four output pins and the device handle -/

/-- The four output pins, by the names of Table S2 (R23). -/
inductive Pin where
  | mode1
  | mode2
  | enable
  | cs
  deriving DecidableEq, Repr

/-- The four pin identities `PIN_MODE1` to `PIN_CS` of Table P1: opaque names of four dedicated output ports,
pairwise distinct because they are four constructors (R21, decision D12). Nothing else is known of them. -/
inductive PinId where
  | pinMode1
  | pinMode2
  | pinEnable
  | pinCs
  deriving DecidableEq, Repr

/-- `bit_order` of Table S1. `MSB_FIRST` is its only legal value (R22, R54). -/
inductive BitOrder where
  | msbFirst
  deriving DecidableEq, Repr

/-- `clk_mode` of Table S1. `IDLE_HIGH_TRAILING` is its only legal value (R22). -/
inductive ClkMode where
  | idleHighTrailing
  deriving DecidableEq, Repr

/-- `BUSCFG`, the block's one control register (R22, Table S1). -/
structure BusCfg where
  clockHz  : Nat
  bitOrder : BitOrder
  clkMode  : ClkMode
  deriving DecidableEq, Repr

/-- The device handle: four pin identities and one bus configuration, immutable (R21). -/
structure Handle where
  mode1  : PinId
  mode2  : PinId
  enable : PinId
  cs     : PinId
  bus    : BusCfg
  deriving DecidableEq, Repr

/-- What is fixed when the block is constructed: the device handle (R21) and the scale constant `KQ`, which
R8 and R142 make a configuration field. No step changes it. -/
structure Params where
  handle : Handle
  kq     : Nat
  deriving DecidableEq, Repr

namespace Config

/-! ### Table P1 -/

/-- `SCK_HZ`. -/
def sckHz : Nat := 1000000

/-- `BUSCFG`, the constant record of Table S1 (R22). -/
def buscfg : BusCfg := { clockHz := sckHz, bitOrder := .msbFirst, clkMode := .idleHighTrailing }

/-- The device handle of this hardware (R21). -/
def handle : Handle :=
  { mode1 := .pinMode1, mode2 := .pinMode2, enable := .pinEnable, cs := .pinCs, bus := buscfg }

/-- `KQ`, the default: 26.330078125 with 16 fraction bits (R142, decision D5). -/
def kq : Nat := 1725568

/-- The parameters with their defaults. -/
def params : Params := { handle := handle, kq := kq }

/-- `T_SETTLE` in microseconds. -/
def tSettle : Nat := 200

/-- `T_POST` in microseconds. -/
def tPost : Nat := 200

/-- `DUMMY`, the byte sent in the data phases of a read. -/
def dummy : Byte := 0x00

/-- `READ_BIT`, the read flag of the command byte. -/
def readBit : Byte := 0x80

/-- `CTRL_ADDR`. -/
def ctrlAddr : Byte := 0

/-- `TORQUE_ADDR`. -/
def torqueAddr : Byte := 1

/-- `I_MAX`, 4.0 A in units of 1/65536 A. -/
abbrev iMax : Int := 262144

/-- `USTEP_MAX`. -/
abbrev ustepMax : Int := 256

/-- `EXP_MAX`. -/
abbrev expMax : Nat := 8

/-! ### Free values: no body, so nothing can be proved of their value -/

/-- `DEV_INIT`: what device register `a` holds when the block leaves reset (R36, N7, U10). -/
opaque devInit : BitVec 3 → Reg16

/-- `F_SYS`, the block's own clock; no rule depends on it (R7, decision D29). -/
opaque fSys : Nat

/-- Draw `n` of a reply byte that nothing else gives (R60, R62, U1, U2). -/
opaque freeReply : Nat → Byte

/-- Draw `n` of the level of `MOSI` between transfers (R24, U7). -/
opaque freeMosi : Nat → Level

/-- Draw `n` of `rsp_data` while `rsp_valid = 0` (R36, U14). -/
opaque freeRsp : Nat → Word32

/-- Draw `n` of what the chip's register `a` holds when no law says (R62, N7, U10). -/
opaque freeReg : Nat → BitVec 3 → Reg16

/-- Draw `n` of the latch `rxh` between operations (Table S3, U14). -/
opaque freeRxh : Nat → Byte

/-- Draw `n` of the latch `rxl` between operations (Table S3, U14). -/
opaque freeRxl : Nat → Byte

/-- Draw `n` of the latch `t` between operations (Table S3, U14). -/
opaque freeT : Nat → Reg16

/-- Draw `n` of the latch `raw` between operations (Table S3, U14). -/
opaque freeRaw : Nat → Byte

/-- Draw `n` of the latch `e` between operations (Table S3, U14). -/
opaque freeE : Nat → BitVec 4

/-- What `AMP_DEC` answers where its quotient does not fit the 32-bit response: only for a `KQ` below 256,
of which R145 states no result. Never used with the default `KQ`. -/
opaque ampDecTooWide : Nat → Byte → Word32

end Config

end Sys2Proof
end

