-- ==== Sys2Proof/Syntax.lean ====
section
/-! DEFINITION. The instructions: one constructor per row of spec/opcode_table.json. The first seven are the
host operations of Table E2 (format `HOSTCMD44`, spec/30_encoding.md R87), each with the operands its row uses
and no ignored field (R91). The last two are the transport operations, whose encoding is the wire frame
(`WIRE24.READ`, `WIRE24.WRITE`, R83, R84). -/

namespace Sys2Proof

/-- The instructions of the register master and its transport. -/
inductive Instr where
  /-- `enable_current`, `op = 0`: `arg[0]` is the level for `ENABLE` (R164). -/
  | enableCurrent (enable : Level)
  /-- `get_current`, `op = 1` (R165). -/
  | getCurrent
  /-- `set_current`, `op = 2`: amperes, signed Q16.16 (R166, R88(c)). -/
  | setCurrent (desired : Word32)
  /-- `get_microsteps`, `op = 3` (R167). -/
  | getMicrosteps
  /-- `set_microsteps`, `op = 4`: a signed 16-bit count (R168, R88(d)). -/
  | setMicrosteps (desired : Reg16)
  /-- `get_register`, `op = 5`: the 8-bit address operand, of which the low four bits are used (R169, R85). -/
  | getRegister (a : Byte)
  /-- `set_register`, `op = 6`: address operand and the 16-bit value (R170). -/
  | setRegister (a : Byte) (value : Reg16)
  /-- `T.READ(a)`, one read frame (R120). -/
  | tRead (a : Byte)
  /-- `T.WRITE(a, value)`, one write frame (R121). -/
  | tWrite (a : Byte) (value : Reg16)
  deriving DecidableEq, Repr

end Sys2Proof
end

