-- ==== Sys2Proof/WellFormed.lean ====
section
/-! DEFINITION. What the syntax and the parameters must satisfy beyond their types. An instruction is well
formed when its encoding holds all of it; parameters are well formed when the constraints of
spec/41_codec.md R142 and spec/10_state.md R21, R22 hold. -/

namespace Sys2Proof

/-- The encoding holds every bit of the instruction. Only a wire frame holds less than its operation's operand:
it carries `a[3:0]`, so `T.READ` and `T.WRITE` stand in a frame with the high four address bits zero (R82, R85).
No address is illegal: `T.READ(0x21)` runs, and sends the frame of `T.READ(1)` (R120). -/
def Instr.wf : Instr → Bool
  | .enableCurrent _ => true
  | .getCurrent => true
  | .setCurrent _ => true
  | .getMicrosteps => true
  | .setMicrosteps _ => true
  | .getRegister _ => true
  | .setRegister _ _ => true
  | .tRead a => a.extractLsb' 4 4 == 0
  | .tWrite a _ => a.extractLsb' 4 4 == 0

/-- The constraint on `KQ`: positive, and the largest accepted current encodes into eight bits (R142). -/
def kqOk (kq : Nat) : Bool := 0 < kq && 262144 * kq + 2 ^ 31 < 256 * 2 ^ 32

/-- The four pin identities are pairwise distinct and the bus configuration has its one legal value (R21, R22). -/
def Handle.wf (h : Handle) : Bool :=
  h.mode1 != h.mode2 && h.mode1 != h.enable && h.mode1 != h.cs && h.mode2 != h.enable && h.mode2 != h.cs &&
    h.enable != h.cs && h.bus == Config.buscfg

/-- A configuration that breaks a constraint is refused (R142, X5). -/
def Params.wf (p : Params) : Bool := p.handle.wf && kqOk p.kq

end Sys2Proof
end

