-- ==== Sys2Proof/Decode.lean ====
section
/-! DEFINITION. The two encodings of spec/30_encoding.md, read and written: the 44-bit host command word
(R86, R87, Table E2) and the 24-bit wire frame (R81 to R84). Decoding is total and rejects by name; the encoder
below it is written from the same tables, with every ignored field zero (R91). -/

namespace Sys2Proof

/-- An encoded instruction: a host command word `W` (R86) or a wire frame `F` (R81). -/
inductive Encoded where
  | command (w : CmdWord)
  | frame (f : FrameWord)
  deriving DecidableEq, Repr

/-- Why an encoding is rejected. -/
inductive DecodeError where
  /-- A command word whose `op` is 7 to 15 (R90). -/
  | reservedOp (op : BitVec 4)
  /-- A 24-bit word that is neither `WIRE24.READ` nor `WIRE24.WRITE` (R83, R84, R93). -/
  | notAFrame (f : FrameWord)
  /-- A byte string that is neither a three-byte frame nor a 44-bit command word in six bytes (R80). -/
  | notAnEncoding (bytes : Nat)
  deriving DecidableEq, Repr

/-! ### Reading -/

/-- `W[43:40]`, the operation code (R86). -/
def opField (w : CmdWord) : BitVec 4 := w.extractLsb' 40 4

/-- `W[39:32]`, the address operand (R86). -/
def aField (w : CmdWord) : Byte := w.extractLsb' 32 8

/-- `W[31:0]`, the data operand (R86). -/
def argField (w : CmdWord) : Word32 := w.extractLsb' 0 32

/-- A decoder of the command word reads `W[43:40]` and is done (R93); the operands are those of Table E2. -/
def decodeCommand (w : CmdWord) : Except DecodeError Instr :=
  match (opField w).toNat with
  | 0 => .ok (.enableCurrent ((argField w).getLsbD 0))
  | 1 => .ok .getCurrent
  | 2 => .ok (.setCurrent (argField w))
  | 3 => .ok .getMicrosteps
  | 4 => .ok (.setMicrosteps ((argField w).extractLsb' 0 16))
  | 5 => .ok (.getRegister (aField w))
  | 6 => .ok (.setRegister (aField w) ((argField w).extractLsb' 0 16))
  | _ => .error (.reservedOp (opField w))

/-- `F[19:16]`, the register address of a frame (R82), as the 8-bit operand of the transport operation. -/
def frameAddr (f : FrameWord) : Byte := (f.extractLsb' 16 4).setWidth 8

/-- `WIRE24.READ` is `0x800000` under the mask `0xF0FFFF` (R83); `WIRE24.WRITE` is `0x000000` under `0xF00000`
(R84). The block emits no other frame (R93). -/
def decodeFrame (f : FrameWord) : Except DecodeError Instr :=
  if f &&& 0xF0FFFF#24 = 0x800000#24 then .ok (.tRead (frameAddr f))
  else if f &&& 0xF00000#24 = 0x000000#24 then .ok (.tWrite (frameAddr f) (f.extractLsb' 0 16))
  else .error (.notAFrame f)

/-- The decoder. -/
def decode : Encoded → Except DecodeError Instr
  | .command w => decodeCommand w
  | .frame f => decodeFrame f

/-- The decoder on bytes, most significant first: three bytes are a frame in wire order (R81); six bytes are a
command word with the four bits above bit 43 zero (the layout in bytes is the model's, assumption 6). -/
def decodeBytes : List Byte → Except DecodeError Instr
  | [c, h, l] => decodeFrame (c ++ h ++ l)
  | [b5, b4, b3, b2, b1, b0] =>
    if b5.extractLsb' 4 4 = 0#4 then decodeCommand (b5.extractLsb' 0 4 ++ b4 ++ b3 ++ b2 ++ b1 ++ b0)
    else .error (.notAnEncoding 6)
  | bytes => .error (.notAnEncoding bytes.length)

/-- The word of a table row, bits numbered as the table numbers them: 24 bits are a frame, 44 bits (48 in whole
bytes) a command word. -/
def tableWord (nbits w : Nat) : Option Encoded :=
  if nbits = 24 then if w < 2 ^ 24 then some (.frame (BitVec.ofNat 24 w)) else none
  else if nbits = 44 ∨ nbits = 48 then if w < 2 ^ 44 then some (.command (BitVec.ofNat 44 w)) else none
  else none

/-- The instruction the decoder reads from a table row's word, none where it rejects. -/
def decodeTableWord (nbits w : Nat) : Option Instr :=
  match tableWord nbits w with
  | some e => (decode e).toOption
  | none => none

/-! ### Writing -/

/-- `op ++ a ++ arg` (R86). -/
def commandWord (op : BitVec 4) (a : Byte) (arg : Word32) : CmdWord := op ++ a ++ arg

/-- The command byte, `R` then three zero bits then `A` (R82). -/
def commandByte (read : Bool) (a : Byte) : Byte := BitVec.ofBool read ++ 0#3 ++ a.extractLsb' 0 4

/-- The words of an instruction (R83, R84, R86, Table E2); unused fields are zero. -/
def encode : Instr → Encoded
  | .enableCurrent b => .command (commandWord 0 0 ((BitVec.ofBool b).setWidth 32))
  | .getCurrent => .command (commandWord 1 0 0)
  | .setCurrent d => .command (commandWord 2 0 d)
  | .getMicrosteps => .command (commandWord 3 0 0)
  | .setMicrosteps d => .command (commandWord 4 0 (d.setWidth 32))
  | .getRegister a => .command (commandWord 5 a 0)
  | .setRegister a v => .command (commandWord 6 a (v.setWidth 32))
  | .tRead a => .frame (commandByte true a ++ 0#8 ++ 0#8)
  | .tWrite a v => .frame (commandByte false a ++ v)

/-- A row of spec/opcode_table.json: its width, match and mask. -/
structure TableRow where
  width : Nat
  value : Nat
  mask  : Nat
  deriving DecidableEq, Repr

/-- The row of the opcode table that an instruction stands for. -/
def Instr.row : Instr → TableRow
  | .enableCurrent _ => ⟨44, 0x00000000000, 0xF0000000000⟩
  | .getCurrent => ⟨44, 0x10000000000, 0xF0000000000⟩
  | .setCurrent _ => ⟨44, 0x20000000000, 0xF0000000000⟩
  | .getMicrosteps => ⟨44, 0x30000000000, 0xF0000000000⟩
  | .setMicrosteps _ => ⟨44, 0x40000000000, 0xF0000000000⟩
  | .getRegister _ => ⟨44, 0x50000000000, 0xF0000000000⟩
  | .setRegister _ _ => ⟨44, 0x60000000000, 0xF0000000000⟩
  | .tRead _ => ⟨24, 0x800000, 0xF0FFFF⟩
  | .tWrite _ _ => ⟨24, 0x000000, 0xF00000⟩

/-- The bits of the command word that an operation uses: `op` and the operands of Table E2. Every other bit is ignored
(R91). A frame has no ignored bit. -/
def Instr.usedBits : Instr → CmdWord
  | .enableCurrent _ => 0xF0000000001#44
  | .getCurrent => 0xF0000000000#44
  | .setCurrent _ => 0xF00FFFFFFFF#44
  | .getMicrosteps => 0xF0000000000#44
  | .setMicrosteps _ => 0xF000000FFFF#44
  | .getRegister _ => 0xFFF00000000#44
  | .setRegister _ _ => 0xFFF0000FFFF#44
  | .tRead _ => 0#44
  | .tWrite _ _ => 0#44

/-- How many bits an encoding has. -/
def Encoded.width : Encoded → Nat
  | .command _ => 44
  | .frame _ => 24

/-- An encoding read as a number, bit 0 the least significant. -/
def Encoded.toNat : Encoded → Nat
  | .command w => w.toNat
  | .frame f => f.toNat

/-- An encoding is one of a row's: its width, and its bits under the mask are the row's match. -/
def TableRow.holds (r : TableRow) (e : Encoded) : Bool := e.width == r.width && (e.toNat &&& r.mask == r.value)

end Sys2Proof
end

