-- ==== Sys2Proof/Machine/State.lean ====
section
/-! DEFINITION. The state of the register master, all that spec/10_state.md R20 lists: the device handle, the
pins, the serial lines and engine, the sequencer with its latches, the host port, and the chip outside the
block; beside them the event trace (R12) and the model's own counter of free values. All of it is plain data. -/

namespace Sys2Proof.Machine

/-! ### The block -/

/-- The levels of the four output pins (R23, Table S2). -/
structure Pins where
  mode1  : Level
  mode2  : Level
  enable : Level
  cs     : Level
  deriving DecidableEq, Repr

/-- The transient latches of one operation (Table S3) that hold computed or received values. The latches `op`,
`a` and `arg` are the instruction that `Seq.running` holds. -/
structure Latches where
  rxh : Byte
  rxl : Byte
  t   : Reg16
  raw : Byte
  e   : BitVec 4
  deriving DecidableEq, Repr

/-- The sequencer position `seq = (op, step)` (R27): which operation runs, and how many events of its
micro-sequence have happened. -/
inductive Seq where
  | idle
  | running (i : Instr) (pos : Nat)
  deriving DecidableEq, Repr

/-- One event of the trace (R12). -/
inductive Event where
  | pin (p : Pin) (level : Level)
  | busBegin
  | busEnd
  | xfer (tx rx : Byte)
  | delay (us : Nat)
  | rsp (op : BitVec 4) (data : Word32)
  deriving DecidableEq, Repr

/-! ### The host -/

/-- What the host does next, in the order it will do it (R6, R235, R236). A well-behaved host does each only
when the block is idle. -/
inductive HostReq where
  /-- Presents a command word: `cmd_valid = 1` with this `cmd_word` (R25). -/
  | command (w : CmdWord)
  /-- Asks the transport layer itself for one frame, the source's `read` and `write` (R94, R120, R121): the
  model's own port, assumption 5. -/
  | call (f : FrameWord)
  /-- Applies reset while the block is idle (R224). -/
  | reset
  /-- Lets time pass (R236). -/
  | wait
  deriving DecidableEq, Repr

/-! ### The chip outside the block -/

/-- The eight device registers of Table M1 (R29). -/
structure DevRegs where
  ctrl   : Reg16
  torque : Reg16
  off    : Reg16
  blank  : Reg16
  decay  : Reg16
  stall  : Reg16
  drive  : Reg16
  status : Reg16
  deriving DecidableEq, Repr

/-- What answers the master's bytes (R62, R63, decision D18). -/
inductive Answers where
  /-- The general model, R62: every reply is any byte. The bytes listed are the next replies, whatever they are;
  past their end each reply is a free value. -/
  | oracle (replies : List Byte)
  /-- No device: the floating line reads as one constant byte (R62, U3). -/
  | floating (level : Byte)
  /-- The reference device of R63. -/
  | reference
  deriving DecidableEq, Repr

/-- The chip: its registers, what answers, and the bytes clocked in since chip-select fell (the device's own
working state, which the reference device needs to decode a frame). -/
structure Chip where
  regs    : DevRegs
  answers : Answers
  frame   : List Byte
  deriving DecidableEq, Repr

/-! ### The whole state -/

/-- Everything the spec gives the machine. -/
structure State where
  /-- The device handle (R21, R22) and `KQ` (R142), which no step changes. -/
  params     : Params
  /-- The four output pins (R23). -/
  pins       : Pins
  /-- The serial clock line (R24). -/
  sck        : Level
  /-- The master's data line (R24). Between transfers its level is unspecified; that a level once drawn holds still until the
  next transfer or reset is the model's choice (assumption 24). -/
  mosi       : Level
  /-- The bus configuration the serial engine runs with, set by `BusBegin` (R111). -/
  engine     : BusCfg
  /-- `bus_held` (R28). -/
  busHeld    : Bool
  /-- The delay timer, in microseconds; zero when it is idle (R199). -/
  delayTimer : Nat
  /-- The sequencer (R27). `busy` is that it is not idle (R28). -/
  seq        : Seq
  /-- The transient latches (Table S3). -/
  lat        : Latches
  /-- `rsp_valid` (R25). -/
  rspValid   : Bool
  /-- `rsp_data` (R25). While `rsp_valid = 0` it is unspecified (R36, U14); that a value once drawn holds still until the next
  idle step, acceptance, response or reset is the model's choice (assumption 26). -/
  rspData    : Word32
  /-- The input `reset` as it stands now (R25). -/
  resetLine  : Bool
  /-- What the host will do, in order (R25, R236). -/
  host       : List HostReq
  /-- The chip outside the block (R29, R62, R63). -/
  chip       : Chip
  /-- How many free values have been drawn: the model's own, assumption 2. -/
  draws      : Nat
  /-- The event trace, oldest first (R12). -/
  trace      : List Event
  deriving DecidableEq, Repr

/-! ### Stops -/

/-- There is no fault: the block raises no exception of any kind (R190), so a step never answers one. -/
inductive Fault where
  deriving DecidableEq, Repr

/-- Why the model gives a step no meaning (R193). Every one of them is safe: nothing can be proved of the run. -/
inductive Refusal where
  /-- An instruction whose arm of `exec` has no meaning yet; no arm is such. Safe. -/
  | notModelled (mnemonic : String)
  /-- A command word whose `op` is 7 to 15: the spec says to refuse it (R90, R193, U5). Raised by the fetch. Safe. -/
  | reservedOp (op : BitVec 4)
  /-- A transport request that is neither of the two wire frames (R83, R84, R93): the spec gives it no meaning.
  Raised by the fetch. Safe. -/
  | notAFrame (f : FrameWord)
  /-- Reset applied while an operation runs: the spec says to refuse it (R193, R224, U11). Raised by the fetch. Safe. -/
  | resetWhileBusy
  /-- A frame to address 8 to 15 under the reference device, which the spec says to refuse (R63, R193, U4). Raised
  by the transfer of the command byte. Safe. -/
  | unnamedAddress (a : BitVec 4)
  /-- Parameters that break the constraint on `KQ` or on the handle: the spec says to refuse them (R142, X5).
  Raised by the fetch and by the acceptance of an instruction. Safe. -/
  | badConfiguration
  /-- `exec` asked to start an instruction while another runs. The block accepts nothing then (R25, R160), and the
  fetch never asks for it. Raised by the acceptance of an instruction. Safe. -/
  | notReady
  deriving DecidableEq, Repr

/-! ### Reset -/

/-- Draw `n` of the latches: between operations they hold any value (U14). -/
def Latches.free (n : Nat) : Latches :=
  { rxh := Config.freeRxh n, rxl := Config.freeRxl n, t := Config.freeT n, raw := Config.freeRaw n,
    e := Config.freeE n }

/-- Eight device registers given by their numbers (Table M1). -/
def DevRegs.byNumber (f : BitVec 3 → Reg16) : DevRegs :=
  { ctrl := f 0, torque := f 1, off := f 2, blank := f 3, decay := f 4, stall := f 5, drive := f 6, status := f 7 }

/-- The pin levels reset establishes (R220). -/
def Pins.startup : Pins := { mode1 := false, mode2 := true, enable := false, cs := true }

/-- The trace of reset: the four pin writes in the listed order (R221, decision D13). -/
def startupTrace : List Event :=
  [.pin .mode1 false, .pin .mode2 true, .pin .enable false, .pin .cs true]

/-- The machine right after reset, Table S4 (R36, R220). What the table leaves unspecified is draw 0 of a free
value; the device registers hold `DEV_INIT`; the chip answers as in the general model of R62; the host has
nothing to present (assumptions 1, 2, 3 and 4). -/
def State.reset : State :=
  { params := Config.params
    pins := Pins.startup
    sck := true
    mosi := Config.freeMosi 0
    engine := Config.buscfg
    busHeld := false
    delayTimer := 0
    seq := .idle
    lat := Latches.free 0
    rspValid := false
    rspData := Config.freeRsp 0
    resetLine := false
    host := []
    chip := { regs := DevRegs.byNumber Config.devInit, answers := .oracle [], frame := [] }
    draws := 1
    trace := startupTrace }

end Sys2Proof.Machine
end

