-- ==== Sys2Proof/Machine/Operands.lean ====
section
/-! DEFINITION. The operand forms: byte order, the command byte, the address operand and the device register it
names (spec/20_memory.md R51 to R53, spec/30_encoding.md R81 to R85). -/

namespace Sys2Proof.Machine

/-! ### Byte order (R53): the high byte first -/

/-- `v[15:8]`. -/
def hiByte (v : Reg16) : Byte := v.extractLsb' 8 8

/-- `v[7:0]`. -/
def loByte (v : Reg16) : Byte := v.extractLsb' 0 8

/-- `h ++ l`, `h` in `[15:8]` (R53). -/
def joinBytes (h l : Byte) : Reg16 := h ++ l

/-! ### The command byte (R82) and the frame it opens (R83, R84) -/

/-- `(addr & 0x0F) | 0x80`. -/
def readCommand (a : Byte) : Byte := (a &&& 0x0F#8) ||| Config.readBit

/-- `addr & 0x0F`. -/
def writeCommand (a : Byte) : Byte := a &&& 0x0F#8

/-! ### Addresses (R51, R52) -/

/-- The register address a command byte or an address operand names: its low four bits (R82, R85). -/
def addrOf (a : Byte) : BitVec 4 := a.extractLsb' 0 4

/-- Whether an address is one of the eight of Table M1 (R51, R52). -/
def named (a : BitVec 4) : Bool := !a.getLsbD 3

/-- The contents of the register at a named address; the address's fourth bit is not looked at. -/
def DevRegs.read (r : DevRegs) (a : BitVec 4) : Reg16 :=
  match (a.extractLsb' 0 3).toNat with
  | 0 => r.ctrl
  | 1 => r.torque
  | 2 => r.off
  | 3 => r.blank
  | 4 => r.decay
  | 5 => r.stall
  | 6 => r.drive
  | _ => r.status

/-- All 16 bits of the register at a named address replaced, every other register kept (R55, R63). -/
def DevRegs.write (r : DevRegs) (a : BitVec 4) (v : Reg16) : DevRegs :=
  match (a.extractLsb' 0 3).toNat with
  | 0 => { r with ctrl := v }
  | 1 => { r with torque := v }
  | 2 => { r with off := v }
  | 3 => { r with blank := v }
  | 4 => { r with decay := v }
  | 5 => { r with stall := v }
  | 6 => { r with drive := v }
  | _ => { r with status := v }

end Sys2Proof.Machine
end

