-- ==== Sys2Proof/Machine/Chip.lean ====
section
/-! DEFINITION. What answers the master's bytes (spec/20_memory.md R62, R63): the general model, in which every
reply is a draw and nothing is said of the chip's registers; the floating line; and the reference device, which
decodes the frame from the bytes it is sent. -/

namespace Sys2Proof.Machine

/-- Draw `n` of the chip's registers. -/
def DevRegs.free (n : Nat) : DevRegs := DevRegs.byNumber (Config.freeReg n)

/-- Time passes for the chip: the reference device's registers change at no other time than a write frame's end
(R63); of any other chip's registers nothing is known (R62, N7, U10). When this is applied is the model's choice: at each
transferred byte, each acceptance and each idle step, and at no other event (assumptions 3 and 25). -/
def Chip.drift (n : Nat) (c : Chip) : Chip :=
  match c.answers with
  | .reference => c
  | .oracle _ => { c with regs := DevRegs.free n }
  | .floating _ => { c with regs := DevRegs.free n }

/-- The reference device's reply to the byte that follows the bytes `got` of the open frame (R63): a draw for the
command byte and for both data bytes of a write, the register's high then low byte for a read. -/
def DevRegs.reply (r : DevRegs) (n : Nat) (got : List Byte) : Byte :=
  match got with
  | [cmd] => if cmd.getLsbD 7 then hiByte (r.read (addrOf cmd)) else Config.freeReply n
  | [cmd, _] => if cmd.getLsbD 7 then loByte (r.read (addrOf cmd)) else Config.freeReply n
  | _ => Config.freeReply n

/-- The reference device refuses a frame to address 8 to 15, which the first byte names (R63, U4). -/
def refusedByte (got : List Byte) (tx : Byte) : Bool := got.isEmpty && !named (addrOf tx)

/-- The reply to `tx`, and the chip after it. -/
def Chip.answer (n : Nat) (tx : Byte) (c : Chip) : Except Refusal (Byte × Chip) :=
  match c.answers with
  | .oracle [] => .ok (Config.freeReply n, { c.drift n with frame := c.frame ++ [tx] })
  | .oracle (r :: rs) => .ok (r, { c.drift n with answers := .oracle rs, frame := c.frame ++ [tx] })
  | .floating b => .ok (b, { c.drift n with frame := c.frame ++ [tx] })
  | .reference =>
    if refusedByte c.frame tx then .error (.unnamedAddress (addrOf tx))
    else .ok (c.regs.reply n c.frame, { c with frame := c.frame ++ [tx] })

/-- What the registers hold once the frame of the bytes `got` has ended: a complete write frame replaces all 16 bits
of the register it names, anything else changes nothing (R63). -/
def DevRegs.afterFrame (r : DevRegs) (got : List Byte) : DevRegs :=
  match got with
  | [cmd, h, l] => if cmd.getLsbD 7 then r else r.write (addrOf cmd) (joinBytes h l)
  | _ => r

/-- Chip-select moves: low opens a frame; high ends it, and the reference device takes a write (R57, R59, R63). DESIGN
CHOICE: the registers of an unknown chip hold still over the edge, and change unforeseen at the next transfer, acceptance
or idle step (assumption 25). -/
def Chip.select (level : Level) (c : Chip) : Chip :=
  match level with
  | false => { c with frame := [] }
  | true =>
    match c.answers with
    | .reference => { c with regs := c.regs.afterFrame c.frame, frame := [] }
    | .oracle _ => { c with frame := [] }
    | .floating _ => { c with frame := [] }

/-- The chip gives a frame to this address a meaning: always, but for the reference device and an unnamed address
(R52, R62, R63). -/
def Chip.takes (c : Chip) (a : Byte) : Bool :=
  match c.answers with
  | .reference => named (addrOf a)
  | .oracle _ => true
  | .floating _ => true

end Sys2Proof.Machine
end

