-- ==== Sys2Proof/Machine/Codec.lean ====
section
/-! DEFINITION. The unit-conversion codec (spec/41_codec.md): pure functions from words to words, computed on
unbounded integers and narrowed at the end (R152). `kq` is the configuration's scale constant (R142). -/

namespace Sys2Proof.Machine

/-! ### Current -/

/-- `AMP_VALID(D) = (0 < D) and (D <= 262144)`, signed (R143). -/
def ampValid (d : Word32) : Bool := decide (0 < d.toInt) && decide (d.toInt ≤ Config.iMax)

/-- `AMP_ENC(D) = (D * KQ + 2^31) >> 32`, taken as 8 bits; applied only where `AMP_VALID(D)`, so `D` is its
unsigned reading too (R144). -/
def ampEnc (kq : Nat) (d : Word32) : Byte := BitVec.ofNat 8 ((d.toNat * kq + 2 ^ 31) / 2 ^ 32)

/-- The quotient of `AMP_DEC(raw) = (raw * 2^32 + (KQ div 2)) div KQ` (R145). -/
def ampDecQuotient (kq : Nat) (raw : Byte) : Nat := (raw.toNat * 2 ^ 32 + kq / 2) / kq

/-- `AMP_DEC(raw)` as the 32-bit response word (R145, R89). Where the quotient does not fit the word, which takes a
`KQ` below 256, the spec states no result and the value is free (assumption 8). -/
def ampDec (kq : Nat) (raw : Byte) : Word32 :=
  if ampDecQuotient kq raw < 2 ^ 32 then BitVec.ofNat 32 (ampDecQuotient kq raw) else Config.ampDecTooWide kq raw

/-! ### Microsteps -/

/-- `USTEP_VALID(d) = (0 < d) and (d <= 256)`, signed (R147). -/
def ustepValid (d : Reg16) : Bool := decide (0 < d.toInt) && decide (d.toInt ≤ Config.ustepMax)

/-- `USTEP_ENC(d) = floor(log2(d))`, the index of the most significant 1 bit; applied only where
`USTEP_VALID(d)` (R148). -/
def ustepEnc (d : Reg16) : BitVec 4 := BitVec.ofNat 4 (Nat.log2 d.toNat)

/-- `USTEP_DEC(e)`: `2^e` for `e` in 0 to 8, else the sentinel -1 (R149). -/
def ustepDec (e : BitVec 4) : Reg16 := if e.toNat ≤ Config.expMax then BitVec.ofNat 16 (2 ^ e.toNat) else BitVec.ofInt 16 (-1)

/-! ### Fields -/

/-- `TORQUE_GET(v) = v[7:0]` (R150). -/
def torqueGet (v : Reg16) : Byte := v.extractLsb' 0 8

/-- `TORQUE_INS(v, raw) = (v & 0xFF00) | zext_16(raw)` (R150). -/
def torqueIns (v : Reg16) (raw : Byte) : Reg16 := (v &&& 0xFF00#16) ||| raw.setWidth 16

/-- `CTRL_GET(v) = v[6:3]` (R151). -/
def ctrlGet (v : Reg16) : BitVec 4 := v.extractLsb' 3 4

/-- `CTRL_INS(v, e) = (v & 0xFF87) | (zext_16(e) << 3)` (R151). -/
def ctrlIns (v : Reg16) (e : BitVec 4) : Reg16 := (v &&& 0xFF87#16) ||| (e.setWidth 16 <<< 3)

/-! ### What an accessor makes of the register it read (R165, R167, R169) -/

/-- `AMP_DEC(TORQUE_GET(v))`. -/
def currentOf (kq : Nat) (v : Reg16) : Word32 := ampDec kq (torqueGet v)

/-- `sext_32(USTEP_DEC(CTRL_GET(v)))`. -/
def microstepsOf (v : Reg16) : Word32 := (ustepDec (ctrlGet v)).signExtend 32

/-- `zext_32(v)`. -/
def rawOf (v : Reg16) : Word32 := v.setWidth 32

end Sys2Proof.Machine
end

