-- ==== Sys2Proof/Machine/Flags.lean ====
section
/-! DEFINITION. The one-bit conditions of the block (spec/10_state.md R28). There are no condition codes, no
status flags and no predicates: no operation sets or tests a flag. `bus_held` is stored (`State.busHeld`);
`busy` is that the sequencer is not idle; the port signals `cmd_ready`, `cmd_valid` and `cmd_word` are read off
`busy` and the host's next request (R25). -/

namespace Sys2Proof.Machine

/-- `busy`: 1 while `seq` is not `IDLE` (R28). -/
def State.busy (s : State) : Bool :=
  match s.seq with
  | .idle => false
  | .running _ _ => true

/-- `cmd_ready = not busy` (R25, R28). -/
def State.cmdReady (s : State) : Bool := !s.busy

/-- `cmd_valid`: the host presents a command word (R25). -/
def State.cmdValid (s : State) : Bool :=
  match s.host with
  | .command _ :: _ => true
  | _ => false

/-- `cmd_word`, where `cmd_valid = 1` (R25). -/
def State.cmdWord (s : State) : Option CmdWord :=
  match s.host with
  | .command w :: _ => some w
  | _ => none

end Sys2Proof.Machine
end

