-- ==== Sys2Proof/Machine/Serial.lean ====
section
/-! DEFINITION. The serial engine at the bit level (spec/40_transport.md R115, spec/20_memory.md R54): eight
clock periods, most significant bit first, clock idle high, both sides sampling at the trailing edge. -/

namespace Sys2Proof.Machine

/-- The idle level of `SCK` in a clock mode (R22, R24). -/
def ClkMode.idleLevel : ClkMode → Level
  | .idleHighTrailing => true

/-- The bit positions of a byte in the order they go on the line (R54). -/
def BitOrder.positions : BitOrder → List Nat
  | .msbFirst => [7, 6, 5, 4, 3, 2, 1, 0]

/-- A transfer in progress: what has been received, and the levels `(SCK, MOSI)` put on the lines so far, oldest
first. -/
structure Shift where
  rx   : Byte
  wave : List (Level × Level)
  deriving DecidableEq, Repr

/-- The period of bit `i` (R115): at the leading edge `SCK` leaves its idle level with `tx[i]` on `MOSI`; at the
trailing edge it returns, and the master samples `MISO`, which carries the device's bit `i`, into `rx[i]`. -/
def Shift.period (cfg : BusCfg) (tx miso : Byte) (sh : Shift) (i : Nat) : Shift :=
  { rx := sh.rx ||| ((BitVec.ofBool (miso.getLsbD i)).setWidth 8 <<< i)
    wave := sh.wave ++ [(!ClkMode.idleLevel cfg.clkMode, tx.getLsbD i), (ClkMode.idleLevel cfg.clkMode, tx.getLsbD i)] }

/-- The eight periods of one byte (R115). -/
def shiftByte (cfg : BusCfg) (tx miso : Byte) : Shift :=
  (BitOrder.positions cfg.bitOrder).foldl (Shift.period cfg tx miso) { rx := 0, wave := [] }

end Sys2Proof.Machine
end

