-- ==== Sys2Proof/Machine/Ops.lean ====
section
/-! DEFINITION. The primitives (spec/40_transport.md R110 to R116), the acceptance of an operation and its
response (spec/42_controller.md R160), and reset (spec/70_reset_and_hazards.md R220 to R224). Taking an exception
and returning from one are not here: the block has neither (spec/60_exceptions.md R190, R196, R197). -/

namespace Sys2Proof.Machine

/-! ### The trace and the delay timer -/

/-- One event happens (R12). A delay loads the timer; by the time of any other event it has run down (R116, R199). -/
def record (e : Event) (s : State) : State :=
  { s with
    trace := s.trace ++ [e]
    delayTimer :=
      match e with
      | .delay us => us
      | _ => 0 }

/-! ### The five primitives -/

/-- The output latch of `p` takes `level`. -/
def Pins.drive (p : Pin) (level : Level) (v : Pins) : Pins :=
  match p with
  | .mode1 => { v with mode1 := level }
  | .mode2 => { v with mode2 := level }
  | .enable => { v with enable := level }
  | .cs => { v with cs := level }

/-- What the chip sees of a pin write: only chip-select reaches it. -/
def Chip.seePin (p : Pin) (level : Level) (c : Chip) : Chip :=
  match p with
  | .cs => c.select level
  | .mode1 => c
  | .mode2 => c
  | .enable => c

/-- `PinWrite(p, level)` (R110, R113). DESIGN CHOICE: `MOSI` keeps its drawn level over it (assumption 24), and the registers
of an unknown chip hold still over it, also at a chip-select edge (assumption 25). -/
def pinWrite (p : Pin) (level : Level) (s : State) : State :=
  record (.pin p level) { s with pins := s.pins.drive p level, chip := s.chip.seePin p level }

/-- `BusBegin(BUSCFG)` (R111): `bus_held <- 1`, and the serial engine is set to the handle's bus configuration. It
never waits and changes no line. -/
def busBegin (s : State) : State :=
  record .busBegin { s with busHeld := true, engine := s.params.handle.bus }

/-- `BusEnd()` (R112). -/
def busEnd (s : State) : State := record .busEnd { s with busHeld := false }

/-- `DelayUs(n)` (R116): no pin or line changes. DESIGN CHOICE: the registers of an unknown chip hold still too
(assumption 25). -/
def delayUs (us : Nat) (s : State) : State := record (.delay us) s

/-- `rx <- Xfer(tx)` (R114, R115): the chip answers a whole byte, which the engine takes in bit by bit. `SCK` ends at
its idle level; `MOSI` is left at a level the spec does not state (U7). -/
def xfer (tx : Byte) (s : State) : Except Refusal (Byte × State) := do
  let (miso, chip) ← s.chip.answer s.draws tx
  let rx := (shiftByte s.engine tx miso).rx
  .ok (rx, record (.xfer tx rx)
    { s with
      chip := chip
      sck := ClkMode.idleLevel s.engine.clkMode
      mosi := Config.freeMosi s.draws
      draws := s.draws + 1 })

/-! ### The response and the acceptance -/

/-- The response (R25, R160): `Rsp(op, data)` joins the trace and `rsp_data` is presented with `rsp_valid`. The
latches then hold any value (Table S3, U14). -/
def respond (op : BitVec 4) (data : Word32) (s : State) : State :=
  record (.rsp op data)
    { s with rspValid := true, rspData := data, lat := Latches.free s.draws, draws := s.draws + 1 }

/-- The step after a response, and every step without one: `rsp_valid = 0`, and `rsp_data` and the registers of an
unknown chip are any values (R25, R36, U10, U14). DESIGN CHOICE: `MOSI` keeps its drawn level (assumption 24), the
latches what they hold (assumption 18), and the value drawn here for `rsp_data` holds over every event of an operation
until its response (assumption 26). -/
def dropResponse (s : State) : State :=
  { s with
    rspValid := false
    rspData := Config.freeRsp s.draws
    chip := s.chip.drift s.draws
    draws := s.draws + 1 }

/-- The latches that are written before the first event: the code to write of a set operation whose operand is valid
(R166, R168, Table S3, N22). -/
def Latches.load (kq : Nat) (i : Instr) (l : Latches) : Latches :=
  match i with
  | .setCurrent d => if ampValid d then { l with raw := ampEnc kq d } else l
  | .setMicrosteps d => if ustepValid d then { l with e := ustepEnc d } else l
  | .enableCurrent _ => l
  | .getCurrent => l
  | .getMicrosteps => l
  | .getRegister _ => l
  | .setRegister _ _ => l
  | .tRead _ => l
  | .tWrite _ _ => l

/-- An instruction is accepted: the block is idle, its parameters are legal, and it becomes busy with the instruction
latched at the start of its sequence (R25, R160). -/
def accept (i : Instr) (s : State) : Except Refusal State :=
  if !s.params.wf then .error .badConfiguration
  else if s.busy then .error .notReady
  else
    let s := dropResponse s
    .ok { s with seq := .running i 0, lat := s.lat.load s.params.kq i }

/-! ### Reset -/

/-- Reset of the idle block (R220, R222, R224): the state of Table S4, the four pin writes being the whole trace. The device
holds whatever it held (R222), known or not, and what the host will do next is untouched; what the table leaves
unspecified of the block is drawn anew. -/
def applyReset (s : State) : State :=
  { s with
    pins := Pins.startup
    sck := ClkMode.idleLevel s.params.handle.bus.clkMode
    mosi := Config.freeMosi s.draws
    engine := s.params.handle.bus
    busHeld := false
    delayTimer := 0
    seq := .idle
    lat := Latches.free s.draws
    rspValid := false
    rspData := Config.freeRsp s.draws
    resetLine := false
    draws := s.draws + 1
    trace := startupTrace }

end Sys2Proof.Machine
end

