-- ==== Sys2Proof/Machine/Micro.lean ====
section
/-! DEFINITION. The sequencer's micro-sequences (spec/10_state.md R27): an operation is a straight line of events,
each one execution of a primitive or the response, and its running moves the position on by one event at a time.
The operations' sequences stand in Transport.lean and Controller.lean. -/

namespace Sys2Proof.Machine

/-- The 16-bit value a write frame carries. -/
inductive WriteValue where
  /-- The operand of the instruction. -/
  | word (v : Reg16)
  /-- `TORQUE_INS(t, raw)` of the latches (R166). -/
  | torqueIns
  /-- `CTRL_INS(t, e)` of the latches (R168). -/
  | ctrlIns
  deriving DecidableEq, Repr

/-- The byte a transfer sends. -/
inductive TxByte where
  | byte (b : Byte)
  | hi (w : WriteValue)
  | lo (w : WriteValue)
  deriving DecidableEq, Repr

/-- What becomes of the byte a transfer receives (R118, R120, R121, Table S3). -/
inductive RxDest where
  | discard
  | high
  | low
  /-- Into `rxl`, and the 16-bit result into `t`: the first read of a set operation. -/
  | lowAndT
  deriving DecidableEq, Repr

/-- The response computed from the last frame's two reply bytes. -/
inductive ResultKind where
  /-- `enable_current` responds 0 (R164). -/
  | zero
  /-- `AMP_DEC(TORQUE_GET(v))` (R165). -/
  | amperes
  /-- `sext_32(USTEP_DEC(CTRL_GET(v)))` (R167). -/
  | microsteps
  /-- `zext_32(v)` (R169, R170). -/
  | raw
  deriving DecidableEq, Repr

/-- One event of a micro-sequence. -/
inductive Micro where
  | busBegin
  | busEnd
  | pinWrite (p : Pin) (level : Level)
  | xfer (tx : TxByte) (dst : RxDest)
  | delayUs (us : Nat)
  | respond (op : BitVec 4) (k : ResultKind)
  deriving DecidableEq, Repr

/-- The value written, from the latches. -/
def WriteValue.value (l : Latches) : WriteValue → Reg16
  | .word v => v
  | .torqueIns => Machine.torqueIns l.t l.raw
  | .ctrlIns => Machine.ctrlIns l.t l.e

/-- The byte sent, from the latches. -/
def TxByte.value (l : Latches) : TxByte → Byte
  | .byte b => b
  | .hi w => hiByte (w.value l)
  | .lo w => loByte (w.value l)

/-- The byte received, into the latches. -/
def RxDest.store (rx : Byte) (l : Latches) : RxDest → Latches
  | .discard => l
  | .high => { l with rxh := rx }
  | .low => { l with rxl := rx }
  | .lowAndT => { l with rxl := rx, t := joinBytes l.rxh rx }

/-- `rxh ++ rxl`, the 16-bit result of the last frame (R118, R120, R121). -/
def Latches.result (l : Latches) : Reg16 := joinBytes l.rxh l.rxl

/-- The response data. -/
def ResultKind.value (kq : Nat) (l : Latches) : ResultKind → Word32
  | .zero => 0
  | .amperes => currentOf kq l.result
  | .microsteps => microstepsOf l.result
  | .raw => rawOf l.result

/-- One event: the primitive, with its operand from the latches and its result into them. -/
def Micro.run (m : Micro) (s : State) : Except Refusal State :=
  match m with
  | .busBegin => .ok (Machine.busBegin s)
  | .busEnd => .ok (Machine.busEnd s)
  | .pinWrite p level => .ok (Machine.pinWrite p level s)
  | .delayUs us => .ok (Machine.delayUs us s)
  | .respond op k => .ok (Machine.respond op (k.value s.params.kq s.lat) s)
  | .xfer tx dst => do
    let (rx, s) ← Machine.xfer (tx.value s.lat) s
    .ok { s with lat := dst.store rx s.lat }

/-- The position after an event: the next one, or idle after the last (R27). -/
def Seq.after (i : Instr) (pos : Nat) (rest : List Micro) : Seq :=
  match rest with
  | [] => .idle
  | _ :: _ => .running i pos

/-- The rest of an operation, from position `pos` to its end. -/
def runFrom (i : Instr) (pos : Nat) (ms : List Micro) (s : State) : Except Refusal State :=
  match ms with
  | [] => .ok { s with seq := .idle }
  | m :: rest => do
    let s ← m.run s
    runFrom i (pos + 1) rest { s with seq := Seq.after i (pos + 1) rest }

/-- A step's outcome. -/
def outcomeOf (r : Except Refusal State) : Host.Outcome State Fault Refusal :=
  match r with
  | .ok s => .next s
  | .error e => .refused e

/-- One whole instruction: accepted, then run through its micro-sequence to its end (R160: it runs to completion, and
nothing interrupts, suspends, cancels or times it out). -/
def runInstr (i : Instr) (ms : List Micro) (s : State) : Host.Outcome State Fault Refusal :=
  outcomeOf (do
    let s ← accept i s
    runFrom i 0 ms s)

end Sys2Proof.Machine
end

