-- ==== Sys2Proof/Machine/Transport.lean ====
section
/-! DEFINITION. The register transport (spec/40_transport.md): the two operations, each exactly one frame with no
retry (R117). -/

namespace Sys2Proof.Machine

/-- `T.READ(a)`, nine events; the last byte received goes where `last` says (R120). There is no delay after the third
byte and none after chip-select goes high. -/
def readFrame (a : Byte) (last : RxDest) : List Micro :=
  [ .busBegin,
    .pinWrite .cs false,
    .xfer (.byte (readCommand a)) .discard,
    .delayUs Config.tSettle,
    .xfer (.byte Config.dummy) .high,
    .delayUs Config.tSettle,
    .xfer (.byte Config.dummy) last,
    .pinWrite .cs true,
    .busEnd ]

/-- `T.WRITE(a, value)`, ten events (R121): three delays, the last after chip-select is high and before the bus is
released (conflict C2). -/
def writeFrame (a : Byte) (v : WriteValue) : List Micro :=
  [ .busBegin,
    .pinWrite .cs false,
    .xfer (.byte (writeCommand a)) .discard,
    .delayUs Config.tSettle,
    .xfer (.hi v) .high,
    .delayUs Config.tSettle,
    .xfer (.lo v) .low,
    .pinWrite .cs true,
    .delayUs Config.tPost,
    .busEnd ]

/-- The micro-sequence of `T.READ`. -/
def tReadProgram (a : Byte) : List Micro := readFrame a .low

/-- The micro-sequence of `T.WRITE`. -/
def tWriteProgram (a : Byte) (v : Reg16) : List Micro := writeFrame a (.word v)

/-- `T.READ(a) -> v` (R120). The result is `rxh ++ rxl`, which the latches hold (assumption 5). -/
def execTRead (a : Byte) (s : State) : Host.Outcome State Fault Refusal :=
  runInstr (.tRead a) (tReadProgram a) s

/-- `T.WRITE(a, value) -> echo` (R121). The echo is `rxh ++ rxl`, which the latches hold (assumption 5). -/
def execTWrite (a : Byte) (v : Reg16) (s : State) : Host.Outcome State Fault Refusal :=
  runInstr (.tWrite a v) (tWriteProgram a v) s

end Sys2Proof.Machine
end

