-- ==== Sys2Proof/Machine/Controller.lean ====
section
/-! DEFINITION. The unit-conversion controller (spec/42_controller.md): the seven host operations, each a fixed
sequence of transport operations and codec functions, ending in the response. -/

namespace Sys2Proof.Machine

/-! ### The micro-sequences -/

/-- R164: one pin write, no register traffic. -/
def enableCurrentProgram (enable : Level) : List Micro :=
  [.pinWrite .enable enable, .respond 0 .zero]

/-- R165: one read of `TORQUE`. -/
def getCurrentProgram : List Micro :=
  readFrame Config.torqueAddr .low ++ [.respond 1 .amperes]

/-- The read-modify-write of `set_current`: read `TORQUE` into `t`, write `TORQUE_INS(t, raw)` (R166). -/
def torqueUpdate : List Micro :=
  readFrame Config.torqueAddr .lowAndT ++ writeFrame Config.torqueAddr .torqueIns

/-- R166: the validity test skips the read-modify-write (R163); then the confirming re-read (R171). -/
def setCurrentProgram (d : Word32) : List Micro :=
  (if ampValid d then torqueUpdate else []) ++ readFrame Config.torqueAddr .low ++ [.respond 2 .amperes]

/-- R167: one read of `CTRL`. -/
def getMicrostepsProgram : List Micro :=
  readFrame Config.ctrlAddr .low ++ [.respond 3 .microsteps]

/-- The read-modify-write of `set_microsteps`: read `CTRL` into `t`, write `CTRL_INS(t, e)` (R168). -/
def ctrlUpdate : List Micro :=
  readFrame Config.ctrlAddr .lowAndT ++ writeFrame Config.ctrlAddr .ctrlIns

/-- R168: the validity test skips the read-modify-write (R163); then the confirming re-read (R171). -/
def setMicrostepsProgram (d : Reg16) : List Micro :=
  (if ustepValid d then ctrlUpdate else []) ++ readFrame Config.ctrlAddr .low ++ [.respond 4 .microsteps]

/-- R169: exactly one `T.READ(a)`. -/
def getRegisterProgram (a : Byte) : List Micro :=
  readFrame a .low ++ [.respond 5 .raw]

/-- R170: exactly one `T.WRITE(a, value)`; the response is the echo. -/
def setRegisterProgram (a : Byte) (v : Reg16) : List Micro :=
  writeFrame a (.word v) ++ [.respond 6 .raw]

/-! ### The meanings -/

/-- `enable_current(enable)` (R164). -/
def execEnableCurrent (enable : Level) (s : State) : Host.Outcome State Fault Refusal :=
  runInstr (.enableCurrent enable) (enableCurrentProgram enable) s

/-- `get_current()` (R165). -/
def execGetCurrent (s : State) : Host.Outcome State Fault Refusal :=
  runInstr .getCurrent getCurrentProgram s

/-- `set_current(desired)` (R166). -/
def execSetCurrent (d : Word32) (s : State) : Host.Outcome State Fault Refusal :=
  runInstr (.setCurrent d) (setCurrentProgram d) s

/-- `get_microsteps()` (R167). -/
def execGetMicrosteps (s : State) : Host.Outcome State Fault Refusal :=
  runInstr .getMicrosteps getMicrostepsProgram s

/-- `set_microsteps(desired)` (R168). -/
def execSetMicrosteps (d : Reg16) (s : State) : Host.Outcome State Fault Refusal :=
  runInstr (.setMicrosteps d) (setMicrostepsProgram d) s

/-- `get_register(address)` (R169). -/
def execGetRegister (a : Byte) (s : State) : Host.Outcome State Fault Refusal :=
  runInstr (.getRegister a) (getRegisterProgram a) s

/-- `set_register(address, value)` (R170). -/
def execSetRegister (a : Byte) (v : Reg16) (s : State) : Host.Outcome State Fault Refusal :=
  runInstr (.setRegister a v) (setRegisterProgram a v) s

end Sys2Proof.Machine
end

