-- ==== Sys2Proof/Machine/Sequencer.lean ====
section
/-! DEFINITION. The sequencer (spec/10_state.md R27) and the port it takes its work from (R25): what the block does
next, the rest of an operation that is under way, and one event of it. -/

namespace Sys2Proof.Machine

/-- The micro-sequence of an instruction. -/
def program : Instr → List Micro
  | .enableCurrent b => enableCurrentProgram b
  | .getCurrent => getCurrentProgram
  | .setCurrent d => setCurrentProgram d
  | .getMicrosteps => getMicrostepsProgram
  | .setMicrosteps d => setMicrostepsProgram d
  | .getRegister a => getRegisterProgram a
  | .setRegister a v => setRegisterProgram a v
  | .tRead a => tReadProgram a
  | .tWrite a v => tWriteProgram a v

/-- What the block does next. -/
inductive Fetched where
  /-- The spec gives it no meaning. -/
  | stop (r : Refusal)
  /-- A step that runs no instruction: reset, or time passing. -/
  | settled (s : State)
  /-- An operation is under way, this far. -/
  | resume (i : Instr) (pos : Nat)
  /-- An instruction is accepted from the port, which no longer holds it. -/
  | instr (i : Instr) (s : State)

/-- Why an encoding is refused. -/
def refusalOf : DecodeError → Refusal
  | .reservedOp op => .reservedOp op
  | .notAFrame f => .notAFrame f
  | .notAnEncoding n => .notAFrame (BitVec.ofNat 24 n)

/-- The next request of the idle block's host, decoded (R25, R160). -/
def fetchIdle (s : State) : Fetched :=
  match s.host with
  | [] => .settled (dropResponse s)
  | .wait :: later => .settled (dropResponse { s with host := later })
  | .reset :: later => .settled (applyReset { s with host := later })
  | .command w :: later =>
    match decode (.command w) with
    | .ok i => .instr i { s with host := later }
    | .error e => .stop (refusalOf e)
  | .call f :: later =>
    match decode (.frame f) with
    | .ok i => .instr i { s with host := later }
    | .error e => .stop (refusalOf e)

/-- What the block does next: reset first, refused while busy (R224); else the operation under way, during which the
port is not looked at (R160, R234); else the host's next request. Illegal parameters are refused (R142). -/
def fetch (s : State) : Fetched :=
  if !s.params.wf then .stop .badConfiguration
  else
    match s.seq with
    | .running i pos => if s.resetLine then .stop .resetWhileBusy else .resume i pos
    | .idle => if s.resetLine then .settled (applyReset s) else fetchIdle s

/-- An operation under way, run to its end. -/
def runRest (i : Instr) (pos : Nat) (s : State) : Host.Outcome State Fault Refusal :=
  outcomeOf (runFrom i pos ((program i).drop pos) s)

/-- One event of an operation under way (R27). -/
def runEvent (i : Instr) (pos : Nat) (s : State) : Host.Outcome State Fault Refusal :=
  outcomeOf
    (match (program i).drop pos with
    | [] => .ok { s with seq := .idle }
    | m :: rest => do
      let s ← m.run s
      .ok { s with seq := Seq.after i (pos + 1) rest })

/-- The fine-grained step: one acceptance, one event of an operation, or one idle step. `step` (Step.lean) runs whole
instructions; this is the same machine seen event by event, where reset can fall inside an operation. -/
def tick (s : State) : Host.Outcome State Fault Refusal :=
  match fetch s with
  | .stop r => .refused r
  | .settled t => .next t
  | .resume i pos => runEvent i pos s
  | .instr i t => outcomeOf (accept i t)

/-- `n` fine-grained steps, stopping at the first refusal. -/
def ticks : Nat → State → Host.Outcome State Fault Refusal
  | 0, s => .next s
  | n + 1, s =>
    match tick s with
    | .next t => ticks n t
    | .fault r => .fault r
    | .refused r => .refused r

end Sys2Proof.Machine
end

