-- ==== Sys2Proof/Machine/Dispatch.lean ====
section
/-! DEFINITION. One arm per instruction: `exec i s` is the whole of instruction `i` from the idle state `s`, from its
acceptance to its last event. -/

namespace Sys2Proof.Machine

def exec (i : Instr) (s : State) : Host.Outcome State Fault Refusal :=
  match i with
  | .enableCurrent enable => Sys2Proof.Machine.execEnableCurrent enable s
  | .getCurrent => Sys2Proof.Machine.execGetCurrent s
  | .setCurrent desired => Sys2Proof.Machine.execSetCurrent desired s
  | .getMicrosteps => Sys2Proof.Machine.execGetMicrosteps s
  | .setMicrosteps desired => Sys2Proof.Machine.execSetMicrosteps desired s
  | .getRegister a => Sys2Proof.Machine.execGetRegister a s
  | .setRegister a value => Sys2Proof.Machine.execSetRegister a value s
  | .tRead a => Sys2Proof.Machine.execTRead a s
  | .tWrite a value => Sys2Proof.Machine.execTWrite a value s

end Sys2Proof.Machine
end

