-- ==== Sys2Proof/Machine/Step.lean ====
section
/-! DEFINITION. The step of the machine: what the fetch finds is done, an instruction through `exec`, whole. -/

namespace Sys2Proof.Machine

/-- One step: the host's next request carried out to its response (R25, R160), or the rest of an operation that was
under way, or time passing. -/
def step (s : State) : Host.Outcome State Fault Refusal :=
  match fetch s with
  | .stop r => .refused r
  | .settled t => .next t
  | .resume i pos => runRest i pos s
  | .instr i t => exec i t

/-- `s` with the instruction of a table row as the host's next request: a command word on the host port, or, for a
24-bit row, a frame asked of the transport layer (assumption 5). Reset is not asserted, so the very next step of an
idle machine runs it. -/
def State.withFetchWord (s : State) (nbits w : Nat) : State :=
  { s with
    resetLine := false
    host :=
      (if nbits = 24 then HostReq.call (BitVec.ofNat 24 w) else HostReq.command (BitVec.ofNat 44 w)) :: s.host }

end Sys2Proof.Machine
end

