-- ==== Sys2Proof/Safety.lean ====
section
/-! DEFINITION. The terms claims about runs are made in: when an instruction may start, the events of one frame, what
every instruction keeps, the frame discipline of the wire as an automaton over the trace, the invariant of every
step, and the lower bounds on duration of spec/70_reset_and_hazards.md Table T1. A run is safe when no step of it is
refused: the machine has no fault (R190). -/

namespace Sys2Proof.Machine

/-! ### Starting, and what is kept -/

/-- An instruction may start: the parameters are legal and the block is idle (R25, R142). -/
def State.ready (s : State) : Prop := s.params.wf = true ∧ s.seq = .idle

/-- A step ended in a next state. -/
def Completes (o : Host.Outcome State Fault Refusal) : Prop := ∃ t, o = .next t

/-- What every instruction leaves as it was, beside the block being idle again: the parameters, the two mode pins and
the power pin, the reset input and what the host does next. -/
structure Kept (s t : State) : Prop where
  params : t.params = s.params
  mode1 : t.pins.mode1 = s.pins.mode1
  mode2 : t.pins.mode2 = s.pins.mode2
  enable : t.pins.enable = s.pins.enable
  resetLine : t.resetLine = s.resetLine
  host : t.host = s.host
  seq : t.seq = .idle

/-- The bus after a frame: chip-select high, the bus released, the clock idle, the engine with the handle's
configuration, no delay running (R113, R24, R111, R235). -/
structure BusReleased (t : State) : Prop where
  cs : t.pins.cs = true
  busHeld : t.busHeld = false
  sck : t.sck = true
  engine : t.engine = t.params.handle.bus
  delayTimer : t.delayTimer = 0

/-- Under the reference device, every register reads as before. -/
def RegsKept (s t : State) : Prop :=
  s.chip.answers = .reference →
    t.chip.answers = .reference ∧ ∀ a : BitVec 4, t.chip.regs.read a = s.chip.regs.read a

/-- Under the reference device, the register at `a` reads as `v` and every other named address as before. -/
def RegWritten (s t : State) (a : BitVec 4) (v : Reg16) : Prop :=
  s.chip.answers = .reference →
    t.chip.answers = .reference ∧
      ∀ x : BitVec 4, named x = true → t.chip.regs.read x = if x = a then v else s.chip.regs.read x

/-! ### The events of a frame -/

/-- The nine events of `T.READ(a)` with the replies `c h l` (R120). -/
def readEvents (a c h l : Byte) : List Event :=
  [.busBegin, .pin .cs false, .xfer (0x80#8 ||| (a &&& 0x0F#8)) c, .delay 200, .xfer 0x00#8 h, .delay 200,
    .xfer 0x00#8 l, .pin .cs true, .busEnd]

/-- The ten events of `T.WRITE(a, v)` with the replies `c h l` (R121). -/
def writeEvents (a : Byte) (v : Reg16) (c h l : Byte) : List Event :=
  [.busBegin, .pin .cs false, .xfer (a &&& 0x0F#8) c, .delay 200, .xfer (v.extractLsb' 8 8) h, .delay 200,
    .xfer (v.extractLsb' 0 8) l, .pin .cs true, .delay 200, .busEnd]

/-- The events a step added to the trace. -/
def newEvents (s t : State) : List Event := t.trace.drop s.trace.length

/-- The byte a transfer sends. -/
def Event.sent : Event → Option Byte
  | .xfer tx _ => some tx
  | .pin _ _ => none
  | .busBegin => none
  | .busEnd => none
  | .delay _ => none
  | .rsp _ _ => none

/-- The byte of the first transfer among some events. -/
def firstSent (es : List Event) : Option Byte := es.findSome? Event.sent

/-! ### Duration (Table T1) -/

/-- The least time of one event, in microseconds: eight clocks at 1 MHz for a transfer, the delay for a delay, no time
for any other event (R232). -/
def Event.micros : Event → Nat
  | .xfer _ _ => 8
  | .delay us => us
  | .pin _ _ => 0
  | .busBegin => 0
  | .busEnd => 0
  | .rsp _ _ => 0

/-- The least time of some events. -/
def micros (es : List Event) : Nat := (es.map Event.micros).sum

/-! ### The frame discipline of the wire -/

/-- Where the wire is in a frame. `read` tells a read frame from a write frame, by its command byte. -/
inductive WirePhase where
  | idle
  | held
  | selected
  | sent (bytes : Nat) (read : Bool)
  | settled (bytes : Nat) (read : Bool)
  | raised (read : Bool)
  | latched
  deriving DecidableEq, Repr

/-- What may happen between frames beside a bus begin: a pin write that does not assert chip-select, and a response. -/
def Event.quiet : Event → Bool
  | .pin p level => p != .cs || level
  | .rsp _ _ => true
  | .busBegin => false
  | .busEnd => false
  | .xfer _ _ => false
  | .delay _ => false

/-- The phase after one event, none where the event may not happen in the phase. A frame is: bus begin; chip-select
low; a command byte with bits 6 to 4 zero; 200 microseconds; a byte; 200 microseconds; a byte; chip-select high; for a
write 200 microseconds; bus end. The data bytes of a read are zero (R81 to R84, R117, R120, R121). Chip-select is
written low nowhere else, and between frames only pin writes and responses happen. -/
def WirePhase.next (ph : WirePhase) (e : Event) : Option WirePhase :=
  match ph with
  | .idle => if e = .busBegin then some .held else if e.quiet then some .idle else none
  | .held => if e = .pin .cs false then some .selected else none
  | .selected =>
    match e.sent with
    | some tx => if tx.extractLsb' 4 3 = 0#3 then some (.sent 1 (tx.getLsbD 7)) else none
    | none => none
  | .sent n read =>
    if n < 3 then if e = .delay 200 then some (.settled n read) else none
    else if e = .pin .cs true then some (.raised read) else none
  | .settled n read =>
    match e.sent with
    | some tx => if read = true ∧ tx ≠ 0#8 then none else some (.sent (n + 1) read)
    | none => none
  | .raised read =>
    if read then if e = .busEnd then some .idle else none
    else if e = .delay 200 then some .latched else none
  | .latched => if e = .busEnd then some .idle else none

/-- The phase after a trace, none where the discipline was broken. -/
def wirePhase : WirePhase → List Event → Option WirePhase
  | ph, [] => some ph
  | ph, e :: es =>
    match ph.next e with
    | some ph' => wirePhase ph' es
    | none => none

/-- The level of chip-select in a phase: low from its assertion to its deassertion. -/
def WirePhase.cs : WirePhase → Level
  | .idle => true
  | .held => true
  | .selected => false
  | .sent _ _ => false
  | .settled _ _ => false
  | .raised _ => true
  | .latched => true

/-- `bus_held` in a phase. -/
def WirePhase.busHeld : WirePhase → Bool
  | .idle => false
  | .held => true
  | .selected => true
  | .sent _ _ => true
  | .settled _ _ => true
  | .raised _ => true
  | .latched => true

/-- The delay timer in a phase (R199): 0 when idle; that it reads 200 from a delay event to the next event is the model's
reading (assumption 14). -/
def WirePhase.delayTimer : WirePhase → Nat
  | .idle => 0
  | .held => 0
  | .selected => 0
  | .sent _ _ => 0
  | .settled _ _ => 200
  | .raised _ => 0
  | .latched => 200

/-- The event of a micro-step with the open bytes zero. -/
def Micro.sketch : Micro → Event
  | .busBegin => .busBegin
  | .busEnd => .busEnd
  | .pinWrite p level => .pin p level
  | .xfer (.byte b) _ => .xfer b 0
  | .xfer (.hi _) _ => .xfer 0 0
  | .xfer (.lo _) _ => .xfer 0 0
  | .delayUs us => .delay us
  | .respond op _ => .rsp op 0

/-- The phase the wire is in when the sequencer stands at a position. -/
def Seq.phase : Seq → Option WirePhase
  | .idle => some .idle
  | .running i pos => wirePhase .idle (((program i).take pos).map Micro.sketch)

/-- The sequencer's position is one of its operation's. -/
def Seq.inRange : Seq → Prop
  | .idle => True
  | .running i pos => pos < (program i).length

/-! ### The invariant -/

/-- What every step and every fine-grained step keeps: legal parameters; the mode pins at their reset levels (R223);
the clock line idle between events (R24); the engine with `BUSCFG` (R22); the whole trace within the frame discipline,
at the phase of the sequencer's position; chip-select, `bus_held` and the delay timer at that phase's values (R28,
R113, R199; the timer's value just after a delay is the model's reading, assumption 14); and no response while an operation
runs (R25). -/
structure Invariant (s : State) : Prop where
  params : s.params.wf = true
  mode1 : s.pins.mode1 = false
  mode2 : s.pins.mode2 = true
  sck : s.sck = true
  engine : s.engine = Config.buscfg
  inRange : s.seq.inRange
  wire : ∃ ph : WirePhase, s.seq.phase = some ph ∧ wirePhase .idle s.trace = some ph ∧ s.pins.cs = ph.cs ∧
    s.busHeld = ph.busHeld ∧ s.delayTimer = ph.delayTimer
  response : s.seq ≠ .idle → s.rspValid = false

/-- The precondition a primitive states (R111, R112, R114); the others state none. -/
def Micro.precondition (m : Micro) (s : State) : Prop :=
  match m with
  | .busBegin => s.busHeld = false ∧ s.pins.cs = true
  | .busEnd => s.busHeld = true ∧ s.pins.cs = true
  | .xfer _ _ => s.busHeld = true ∧ s.pins.cs = false
  | .pinWrite _ _ => True
  | .delayUs _ => True
  | .respond _ _ => True

/-- How many fine-grained steps one step is: an acceptance and every event for an instruction, the events left for an
operation under way, one for anything else. -/
def ticksOf (s : State) : Nat :=
  match fetch s with
  | .stop _ => 1
  | .settled _ => 1
  | .resume i pos => max 1 ((program i).length - pos)
  | .instr i _ => (program i).length + 1

end Sys2Proof.Machine
end

