-- ==== Sys2Proof/Certificates/Slice0/Obligations.lean ====
section
/-! DEFINITION. The statements for the provers. Each docstring says which rule of spec/ the statement formalises and
where it rests on a choice of the model's own. `State.ready` is the only premise of an instruction's completion, with
`Chip.takes` for the four instructions that take an address from their operand: it fails only for the reference device
at an unnamed address, and `ReferenceDeviceRefusesUnnamedAddresses` says what happens there. -/

open Sys2Proof Sys2Proof.Machine

/-! ### Encodings -/

/-- Decoding an encoded well-formed instruction gives it back, every operand at every value (R83, R84, R86, R87). -/
def Obligations.DecodeOfEncodeIsTheInstruction : Prop :=
  ∀ i : Instr, i.wf = true → decode (encode i) = .ok i

/-- A frame that decodes is the encoding of what it decodes to, bit for bit (R83, R84). -/
def Obligations.EncodeOfDecodedFrameIsTheFrame : Prop :=
  ∀ (f : FrameWord) (i : Instr), decode (.frame f) = .ok i → i.wf = true ∧ encode i = .frame f

/-- R91: the bits of a command word that an operation does not use may hold any value, and the bits it uses are those of
its encoding. -/
def Obligations.IgnoredFieldsAreIgnored : Prop :=
  ∀ (w : CmdWord) (i : Instr), decode (.command w) = .ok i →
    encode i = .command (w &&& i.usedBits) ∧
      ∀ w' : CmdWord, w' &&& i.usedBits = w &&& i.usedBits → decode (.command w') = .ok i

/-- R87 and Table E2 on words written out from the spec: the command words of vectors H2, H20, H21 and H25 and the
frames of T1 and T2. -/
def Obligations.WordsOfTheSpecDecode : Prop :=
  decode (.command 0x20000020000) = .ok (.setCurrent 0x00020000) ∧
  decode (.command 0x51700000000) = .ok (.getRegister 0x17) ∧
  decode (.command 0x60000000C49) = .ok (.setRegister 0x00 0x0C49) ∧
  decode (.command 0x000FFFFFFFE) = .ok (.enableCurrent false) ∧
  decode (.frame 0x810000) = .ok (.tRead 0x01) ∧
  decode (.frame 0x00BEEF) = .ok (.tWrite 0x00 0xBEEF)

/-- R90: a command word whose `op` is 7 to 15 is refused, whatever the rest of it and whatever the idle block's state. -/
def Obligations.ReservedOperationCodesAreRefused : Prop :=
  ∀ (s : State) (w : CmdWord) (later : List HostReq), s.ready → s.resetLine = false → s.host = .command w :: later →
    7 ≤ (w.extractLsb' 40 4).toNat → step s = .refused (.reservedOp (w.extractLsb' 40 4))

/-! ### Fetching -/

/-- A step of the idle machine runs the decoded instruction: the request leaves the host's list and `exec` runs on the
rest; with `withFetchWord`, on the state itself (R25, R160; the port is described in assumption 5). -/
def Obligations.StepRunsTheDecodedInstruction : Prop :=
  (∀ (s : State) (w : CmdWord) (later : List HostReq) (i : Instr), s.ready → s.resetLine = false →
    s.host = .command w :: later → decode (.command w) = .ok i → step s = exec i { s with host := later }) ∧
  (∀ (s : State) (f : FrameWord) (later : List HostReq) (i : Instr), s.ready → s.resetLine = false →
    s.host = .call f :: later → decode (.frame f) = .ok i → step s = exec i { s with host := later }) ∧
  (∀ (s : State) (nbits w : Nat) (i : Instr), s.ready → decodeTableWord nbits w = some i →
    step (s.withFetchWord nbits w) = exec i { s with resetLine := false })

/-- R142: parameters that break the constraint are refused by every step; the default is accepted, 4186111 is the largest
`KQ` that is, and the `KQ` of vector X5 is not. That every step and every `exec` refuses is the model's reading
(assumption 17). -/
def Obligations.BadConfigurationIsRefused : Prop :=
  (∀ s : State, s.params.wf = false → step s = .refused .badConfiguration) ∧
    (∀ (i : Instr) (s : State), s.params.wf = false → exec i s = .refused .badConfiguration) ∧
    (∀ kq : Nat, kqOk kq = true ↔ 0 < kq ∧ 262144 * kq + 2 ^ 31 < 256 * 2 ^ 32) ∧
    kqOk 1725568 = true ∧ (∀ kq : Nat, kqOk kq = true → kq ≤ 4186111) ∧ kqOk 4186111 = true ∧ kqOk 4316856 = false

/-- R25, R36: a step in which the host presents nothing, or asks to let time pass, drops `rsp_valid` and changes nothing else
of the block: time may pass between operations (R236). `rsp_data` is then a free value, and so are the registers of an
unknown chip (assumptions 3 and 22). That `t.mosi = s.mosi` and `t.lat = s.lat` is no rule of the spec, which leaves both at
any value between operations (R24, U7, Table S3, U14): these two clauses are the model's choice of when free values are
redrawn (assumptions 2, 5, 18 and 24). -/
def Obligations.IdleStepDropsTheResponse : Prop :=
  ∀ (s : State) (later : List HostReq), s.ready → s.resetLine = false →
    (s.host = [] ∧ later = []) ∨ s.host = .wait :: later →
    ∃ t : State, step s = .next t ∧ t.rspValid = false ∧ Kept { s with host := later } t ∧ t.pins = s.pins ∧ t.sck = s.sck ∧
      t.mosi = s.mosi ∧ t.engine = s.engine ∧ t.busHeld = s.busHeld ∧ t.delayTimer = s.delayTimer ∧ t.lat = s.lat ∧
      t.trace = s.trace ∧ RegsKept s t

/-! ### The codec -/

/-- R143: the interval (0.0, 4.0] of the signed operand. -/
def Obligations.AmpValidIsTheInterval : Prop :=
  ∀ d : Word32, ampValid d = true ↔ 0 < d.toInt ∧ d.toInt ≤ 262144

/-- R144 and R142: for every legal `KQ` the code of a valid operand is the rounded product, whole, in eight bits; it is
monotone; with the default `KQ` it is at most 105, no operand is a tie, and the three corner cases hold. -/
def Obligations.AmpEncRoundsTheProduct : Prop :=
  (∀ (kq : Nat) (d : Word32), kqOk kq = true → ampValid d = true →
    (ampEnc kq d).toNat = (d.toNat * kq + 2 ^ 31) / 2 ^ 32) ∧
  (∀ (kq : Nat) (d e : Word32), kqOk kq = true → ampValid d = true → ampValid e = true → d.toInt ≤ e.toInt →
    (ampEnc kq d).toNat ≤ (ampEnc kq e).toNat) ∧
  (∀ d : Word32, ampValid d = true →
    (ampEnc 1725568 d).toNat ≤ 105 ∧ (d.toNat * 1725568 + 2 ^ 31) % 2 ^ 32 ≠ 0 ∧
      (d.toNat ≤ 1244 → ampEnc 1725568 d = 0)) ∧
  ampEnc 1725568 1245 = 1 ∧ ampEnc 1725568 262144 = 105

/-- R145: the rounded quotient, whole, for every `KQ` whose quotients fit the response word; with the default `KQ` it fits
20 bits and is strictly increasing, and the corner cases and the example hold. -/
def Obligations.AmpDecRoundsTheQuotient : Prop :=
  (∀ (kq : Nat) (raw : Byte), 256 ≤ kq → (ampDec kq raw).toNat = (raw.toNat * 2 ^ 32 + kq / 2) / kq) ∧
  (∀ raw : Byte, (ampDec 1725568 raw).toNat < 2 ^ 20) ∧
  (∀ raw raw' : Byte, raw.toNat < raw'.toNat → (ampDec 1725568 raw).toNat < (ampDec 1725568 raw').toNat) ∧
  ampDec 1725568 0 = 0 ∧ ampDec 1725568 1 = 0x009B9 ∧ ampDec 1725568 53 = 0x2034E ∧ ampDec 1725568 105 = 0x3FCE3 ∧
    ampDec 1725568 255 = 0x9AF4B

/-- R146: over every valid operand the round trip is off by at most one step 1/K, and in fact by at most 1245 units of
1/65536 A. (Where the largest error is reached, R146 names an operand its own rules do not give it at: assumption 11.) -/
def Obligations.CurrentRoundTripIsWithinOneStep : Prop :=
  ∀ d : Word32, ampValid d = true →
    let back : Int := (ampDec 1725568 (ampEnc 1725568 d)).toNat
    |back - d.toInt| * 1725568 ≤ 2 ^ 32 ∧ |back - d.toInt| ≤ 1245

/-- R147, R148: the interval (0, 256] of the signed operand; the exponent of a valid operand is the floor of its base-2
logarithm, 0 to 8. -/
def Obligations.UstepEncIsFloorLog2 : Prop :=
  (∀ d : Reg16, ustepValid d = true ↔ 0 < d.toInt ∧ d.toInt ≤ 256) ∧
  (∀ d : Reg16, ustepValid d = true →
    (ustepEnc d).toNat ≤ 8 ∧ 2 ^ (ustepEnc d).toNat ≤ d.toNat ∧ d.toNat < 2 ^ ((ustepEnc d).toNat + 1))

/-- R149: 2^e for the exponents 0 to 8, the sentinel -1 for 9 to 15; what was encoded decodes to the largest power of two
not above the operand. -/
def Obligations.UstepDecSentinel : Prop :=
  (∀ e : BitVec 4, (e.toNat ≤ 8 → (ustepDec e).toInt = 2 ^ e.toNat) ∧ (9 ≤ e.toNat → (ustepDec e).toInt = -1)) ∧
  (∀ d : Reg16, ustepValid d = true →
    (ustepDec (ustepEnc d)).toNat ≤ d.toNat ∧ ∀ k : Nat, 2 ^ k ≤ d.toNat → 2 ^ k ≤ (ustepDec (ustepEnc d)).toNat)

/-- R150: the torque field is inserted and read, and bits [15:8] are preserved. -/
def Obligations.TorqueFieldLaws : Prop :=
  ∀ (v : Reg16) (raw : Byte),
    torqueGet v = v.extractLsb' 0 8 ∧ torqueIns v raw = (v &&& 0xFF00#16) ||| raw.setWidth 16 ∧
      (torqueIns v raw).extractLsb' 8 8 = v.extractLsb' 8 8 ∧ torqueGet (torqueIns v raw) = raw

/-- R151: the exponent field is inserted and read, and bits [15:7] and [2:0] are preserved. -/
def Obligations.CtrlFieldLaws : Prop :=
  ∀ (v : Reg16) (e : BitVec 4),
    ctrlGet v = v.extractLsb' 3 4 ∧ ctrlIns v e = (v &&& 0xFF87#16) ||| (e.setWidth 16 <<< 3) ∧
      (ctrlIns v e).extractLsb' 7 9 = v.extractLsb' 7 9 ∧ (ctrlIns v e).extractLsb' 0 3 = v.extractLsb' 0 3 ∧
      ctrlGet (ctrlIns v e) = e

/-! ### The primitives and the transport -/

/-- R115 at the bit level: the clock falls, then rises, once for each bit, most significant bit first, with the bit on
`MOSI` throughout its period (from the leading edge on: assumption 19), and what is received is the byte on `MISO`. -/
def Obligations.TransferIsMostSignificantBitFirst : Prop :=
  ∀ (cfg : BusCfg) (tx miso : Byte),
    (shiftByte cfg tx miso).rx = miso ∧
      (shiftByte cfg tx miso).wave =
        [7, 6, 5, 4, 3, 2, 1, 0].flatMap fun i => [(false, tx.getLsbD i), (true, tx.getLsbD i)]

/-- R120: `T.READ(a)` completes from every ready state, with exactly its nine events; the result is the two data-phase
replies, the high byte first; of the block it writes only chip-select, the bus, the lines and the two latches; it asks
for no device register to change. `t.mosi` is a free value (R24). -/
def Obligations.TransportReadRunsItsFrame : Prop :=
  ∀ (a : Byte) (s : State), s.ready → s.chip.takes a = true →
    ∃ (c h l : Byte) (t : State), exec (.tRead a) s = .next t ∧
      t.trace = s.trace ++ readEvents a c h l ∧ t.lat.result = h ++ l ∧ t.lat = { s.lat with rxh := h, rxl := l } ∧
      Kept s t ∧ BusReleased t ∧ t.rspValid = false ∧ RegsKept s t

/-- R121: `T.WRITE(a, v)` completes from every ready state, with exactly its ten events, the big-endian halves of `v` in
the data phases and the post-delay before the bus is released; the result is the echo. -/
def Obligations.TransportWriteRunsItsFrame : Prop :=
  ∀ (a : Byte) (v : Reg16) (s : State), s.ready → s.chip.takes a = true →
    ∃ (c h l : Byte) (t : State), exec (.tWrite a v) s = .next t ∧
      t.trace = s.trace ++ writeEvents a v c h l ∧ t.lat.result = h ++ l ∧ t.lat = { s.lat with rxh := h, rxl := l } ∧
      Kept s t ∧ BusReleased t ∧ t.rspValid = false ∧ RegWritten s t (a.extractLsb' 0 4) v

/-- R123: the first byte of either transport operation carries the low four bits of the address, zeros, and the read flag
exactly for a read. -/
def Obligations.CommandByteCarriesAddressAndReadFlag : Prop :=
  ∀ (a : Byte) (v : Reg16) (s t : State),
    (exec (.tRead a) s = .next t → ∃ tx : Byte, firstSent (newEvents s t) = some tx ∧
      tx.extractLsb' 0 4 = a.extractLsb' 0 4 ∧ tx.extractLsb' 4 3 = 0#3 ∧ tx.getLsbD 7 = true) ∧
    (exec (.tWrite a v) s = .next t → ∃ tx : Byte, firstSent (newEvents s t) = some tx ∧
      tx.extractLsb' 0 4 = a.extractLsb' 0 4 ∧ tx.extractLsb' 4 3 = 0#3 ∧ tx.getLsbD 7 = false)

/-- The three bytes the transport puts on the wire in one operation are the encoding `WIRE24.READ` or `WIRE24.WRITE` of that
operation, first byte in `F[23:16]` (R81, R83, R84); no address operand changes a frame but by its low four bits (R85). -/
def Obligations.FramesSentAreTheEncodings : Prop :=
  (∀ (a : Byte) (s : State), s.ready → s.chip.takes a = true →
    ∃ (t : State) (b0 b1 b2 : Byte), exec (.tRead a) s = .next t ∧
      (newEvents s t).filterMap Event.sent = [b0, b1, b2] ∧ encode (.tRead a) = .frame (b0 ++ b1 ++ b2)) ∧
  (∀ (a : Byte) (v : Reg16) (s : State), s.ready → s.chip.takes a = true →
    ∃ (t : State) (b0 b1 b2 : Byte), exec (.tWrite a v) s = .next t ∧
      (newEvents s t).filterMap Event.sent = [b0, b1, b2] ∧ encode (.tWrite a v) = .frame (b0 ++ b1 ++ b2)) ∧
  (∀ (a : Byte) (v : Reg16), encode (.tRead a) = encode (.tRead (a &&& 0x0F#8)) ∧
    encode (.tWrite a v) = encode (.tWrite (a &&& 0x0F#8) v))

/-- R116: every delay is 200 microseconds, and a delay under way appends its event and loads the timer; no pin, line or
latch changes, and no command is accepted. (The timer's value after the event:
assumption 14. That the registers of an unknown chip hold still too, which `t.chip = s.chip` says beside the rest, is the
model's choice and no rule of the spec: assumptions 3 and 25.) -/
def Obligations.DelaysAreTwoHundredMicrosecondsAndChangeNoLine : Prop :=
  (∀ (i : Instr) (us : Nat), Micro.delayUs us ∈ program i → us = 200) ∧
  ∀ (i : Instr) (pos us : Nat) (s : State), s.params.wf = true → s.resetLine = false → s.seq = .running i pos →
    (program i)[pos]? = some (.delayUs us) →
    ∃ t : State, tick s = .next t ∧ t.trace = s.trace ++ [.delay us] ∧ t.delayTimer = us ∧ t.pins = s.pins ∧
      t.sck = s.sck ∧ t.mosi = s.mosi ∧ t.busHeld = s.busHeld ∧ t.lat = s.lat ∧ t.chip = s.chip ∧ t.host = s.host ∧
      t.rspValid = s.rspValid

/-! ### What answers -/

/-- R62: in the general model the replies are whatever they are: a read frame returns the next listed bytes and a write
frame's echo is too; the first of the three is discarded (R118). -/
def Obligations.OracleRepliesFormTheResult : Prop :=
  ∀ (a : Byte) (v : Reg16) (s : State) (c h l : Byte) (rest : List Byte), s.ready →
    s.chip.answers = .oracle (c :: h :: l :: rest) →
    (∃ t, exec (.tRead a) s = .next t ∧ t.lat.result = h ++ l ∧ t.chip.answers = .oracle rest) ∧
    (∃ t, exec (.tWrite a v) s = .next t ∧ t.lat.result = h ++ l ∧ t.chip.answers = .oracle rest)

/-- R62's special case, no device: every frame returns the line's constant in both bytes, at every address, read or
write (vector T7), and nothing is flagged. -/
def Obligations.FloatingBusReadsOneConstant : Prop :=
  ∀ (a : Byte) (v : Reg16) (s : State) (b : Byte), s.ready → s.chip.answers = .floating b →
    (∃ t, exec (.tRead a) s = .next t ∧ t.lat.result = b ++ b) ∧
    (∃ t, exec (.tWrite a v) s = .next t ∧ t.lat.result = b ++ b) ∧
    (∃ t, exec (.getRegister a) s = .next t ∧ t.rspData = (b ++ b).setWidth 32) ∧
    (∃ t, exec (.setRegister a v) s = .next t ∧ t.rspData = (b ++ b).setWidth 32)

/-- R63: a read of the reference device at a named address returns the register and changes no register. -/
def Obligations.ReferenceDeviceReadsItsRegister : Prop :=
  ∀ (a : Byte) (s : State), s.ready → s.chip.answers = .reference → (a.extractLsb' 0 4).toNat < 8 →
    ∃ t, exec (.getRegister a) s = .next t ∧ t.rspValid = true ∧
      t.rspData = (s.chip.regs.read (a.extractLsb' 0 4)).setWidth 32 ∧
      t.chip.answers = .reference ∧ t.chip.regs = s.chip.regs

/-- R63: a write of the reference device at a named address replaces all 16 bits of that register and no other. -/
def Obligations.ReferenceDeviceTakesAWrite : Prop :=
  ∀ (a : Byte) (v : Reg16) (s : State), s.ready → s.chip.answers = .reference → (a.extractLsb' 0 4).toNat < 8 →
    ∃ t, exec (.setRegister a v) s = .next t ∧ t.chip.answers = .reference ∧
      ∀ x : BitVec 4, x.toNat < 8 →
        t.chip.regs.read x = if x = a.extractLsb' 0 4 then v else s.chip.regs.read x

/-- R63 and R193: the reference device gives a frame to address 8 to 15 no meaning, and the model refuses the four
instructions that can send one. -/
def Obligations.ReferenceDeviceRefusesUnnamedAddresses : Prop :=
  ∀ (a : Byte) (v : Reg16) (s : State), s.ready → s.chip.answers = .reference → 8 ≤ (a.extractLsb' 0 4).toNat →
    exec (.getRegister a) s = .refused (.unnamedAddress (a.extractLsb' 0 4)) ∧
    exec (.setRegister a v) s = .refused (.unnamedAddress (a.extractLsb' 0 4)) ∧
    exec (.tRead a) s = .refused (.unnamedAddress (a.extractLsb' 0 4)) ∧
    exec (.tWrite a v) s = .refused (.unnamedAddress (a.extractLsb' 0 4))

/-! ### The host operations -/

/-- R164: `enable_current` drives the power pin and responds 0; there is no register traffic, no bus event, no delay.
Of `MOSI` nothing is said: its level between transfers is any value (R24). -/
def Obligations.EnableCurrentDrivesThePowerPin : Prop :=
  ∀ (b : Level) (s : State), s.ready →
    ∃ t : State, exec (.enableCurrent b) s = .next t ∧
      t.pins = { s.pins with enable := b } ∧ t.rspValid = true ∧ t.rspData = 0 ∧
      t.trace = s.trace ++ [.pin .enable b, .rsp 0 0] ∧
      t.params = s.params ∧ t.sck = s.sck ∧ t.engine = s.engine ∧ t.busHeld = s.busHeld ∧
      t.delayTimer = 0 ∧ t.seq = .idle ∧ t.resetLine = s.resetLine ∧ t.host = s.host ∧
      t.chip.answers = s.chip.answers ∧ RegsKept s t

/-- R165: `get_current` puts one read frame of `TORQUE` on the wire and responds `AMP_DEC` of bits [7:0] of what was
read, the reply `l`; bits [15:8], the reply `h`, do not affect the result. -/
def Obligations.GetCurrentDecodesTorque : Prop :=
  ∀ s : State, s.ready →
    ∃ (c h l : Byte) (t : State), exec .getCurrent s = .next t ∧ t.rspValid = true ∧
      t.rspData = ampDec s.params.kq l ∧
      t.trace = s.trace ++ readEvents 1 c h l ++ [.rsp 1 (ampDec s.params.kq l)] ∧
      Kept s t ∧ BusReleased t ∧ RegsKept s t

/-- R166, R163, R171: `set_current` with a valid operand reads `TORQUE`, writes what it read with bits [7:0] replaced by
the code, and reads it again; with an operand out of range it only reads. The response is the decoding of the last
read. -/
def Obligations.SetCurrentReadsWritesAndRereads : Prop :=
  ∀ (d : Word32) (s : State), s.ready →
    ∃ (c0 h0 l0 c1 h1 l1 c h l : Byte) (t : State), exec (.setCurrent d) s = .next t ∧ t.rspValid = true ∧
      t.rspData = ampDec s.params.kq l ∧
      t.trace = s.trace ++
        (if 0 < d.toInt ∧ d.toInt ≤ 262144 then
          readEvents 1 c0 h0 l0 ++
            writeEvents 1 (torqueIns (h0 ++ l0) (ampEnc s.params.kq d)) c1 h1 l1
        else []) ++
        readEvents 1 c h l ++ [.rsp 2 (ampDec s.params.kq l)] ∧
      Kept s t ∧ BusReleased t

/-- R167: `get_microsteps` puts one read frame of `CTRL` on the wire and responds the sign-extended decoding of bits
[6:3] of what was read, which all lie in the reply `l`. -/
def Obligations.GetMicrostepsDecodesCtrl : Prop :=
  ∀ s : State, s.ready →
    ∃ (c h l : Byte) (t : State), exec .getMicrosteps s = .next t ∧ t.rspValid = true ∧
      t.rspData = (ustepDec (l.extractLsb' 3 4)).signExtend 32 ∧
      t.trace = s.trace ++ readEvents 0 c h l ++ [.rsp 3 ((ustepDec (l.extractLsb' 3 4)).signExtend 32)] ∧
      Kept s t ∧ BusReleased t ∧ RegsKept s t

/-- R168, R163, R171: `set_microsteps`, as `set_current`, on bits [6:3] of `CTRL`. -/
def Obligations.SetMicrostepsReadsWritesAndRereads : Prop :=
  ∀ (d : Reg16) (s : State), s.ready →
    ∃ (c0 h0 l0 c1 h1 l1 c h l : Byte) (t : State), exec (.setMicrosteps d) s = .next t ∧ t.rspValid = true ∧
      t.rspData = (ustepDec (l.extractLsb' 3 4)).signExtend 32 ∧
      t.trace = s.trace ++
        (if 0 < d.toInt ∧ d.toInt ≤ 256 then
          readEvents 0 c0 h0 l0 ++ writeEvents 0 (ctrlIns (h0 ++ l0) (ustepEnc d)) c1 h1 l1
        else []) ++
        readEvents 0 c h l ++ [.rsp 4 ((ustepDec (l.extractLsb' 3 4)).signExtend 32)] ∧
      Kept s t ∧ BusReleased t

/-- R169: `get_register` is exactly one `T.READ`, and responds the value read, zero-extended. -/
def Obligations.GetRegisterPassesTheReadThrough : Prop :=
  ∀ (a : Byte) (s : State), s.ready → s.chip.takes a = true →
    ∃ (c h l : Byte) (t : State), exec (.getRegister a) s = .next t ∧ t.rspValid = true ∧
      t.rspData = (h ++ l).setWidth 32 ∧
      t.trace = s.trace ++ readEvents a c h l ++ [.rsp 5 ((h ++ l).setWidth 32)] ∧
      Kept s t ∧ BusReleased t ∧ RegsKept s t

/-- R170: `set_register` is exactly one `T.WRITE`, and responds the echo, zero-extended; no read before, no re-read
after. -/
def Obligations.SetRegisterPassesTheWriteThrough : Prop :=
  ∀ (a : Byte) (v : Reg16) (s : State), s.ready → s.chip.takes a = true →
    ∃ (c h l : Byte) (t : State), exec (.setRegister a v) s = .next t ∧ t.rspValid = true ∧
      t.rspData = (h ++ l).setWidth 32 ∧
      t.trace = s.trace ++ writeEvents a v c h l ++ [.rsp 6 ((h ++ l).setWidth 32)] ∧
      Kept s t ∧ BusReleased t ∧ RegWritten s t (a.extractLsb' 0 4) v

/-- R166 under the reference device (R63): a valid request leaves `TORQUE[15:8]` and every other register as they were,
puts the code in `TORQUE[7:0]`, and responds the decoding of that code; an invalid one changes no register and responds
the decoding of the present code. -/
def Obligations.SetCurrentOnTheReferenceDevice : Prop :=
  ∀ (d : Word32) (s : State), s.ready → s.chip.answers = .reference →
    (ampValid d = true → ∃ t, exec (.setCurrent d) s = .next t ∧ t.chip.answers = .reference ∧
      t.chip.regs = { s.chip.regs with torque := s.chip.regs.torque.extractLsb' 8 8 ++ ampEnc s.params.kq d } ∧
      t.rspData = ampDec s.params.kq (ampEnc s.params.kq d)) ∧
    (ampValid d = false → ∃ t, exec (.setCurrent d) s = .next t ∧ t.chip.answers = .reference ∧
      t.chip.regs = s.chip.regs ∧ t.rspData = ampDec s.params.kq (s.chip.regs.torque.extractLsb' 0 8))

/-- R168 under the reference device (R63): a valid request leaves `CTRL[15:7]`, `CTRL[2:0]` and every other register as
they were and responds the largest power of two not above it; an invalid one changes no register and responds the
decoding of the present exponent. -/
def Obligations.SetMicrostepsOnTheReferenceDevice : Prop :=
  ∀ (d : Reg16) (s : State), s.ready → s.chip.answers = .reference →
    (ustepValid d = true → ∃ t, exec (.setMicrosteps d) s = .next t ∧ t.chip.answers = .reference ∧
      t.chip.regs = { s.chip.regs with
        ctrl := s.chip.regs.ctrl.extractLsb' 7 9 ++ ustepEnc d ++ s.chip.regs.ctrl.extractLsb' 0 3 } ∧
      t.rspData.toNat = 2 ^ Nat.log2 d.toNat) ∧
    (ustepValid d = false → ∃ t, exec (.setMicrosteps d) s = .next t ∧ t.chip.answers = .reference ∧
      t.chip.regs = s.chip.regs ∧ t.rspData = (ustepDec (s.chip.regs.ctrl.extractLsb' 3 4)).signExtend 32)

/-- R171: the value a set operation returns is computed from the bytes of the final read and from nothing else. In the
general model, whatever the operand, the value written, the echo and every earlier reply, it is the decoding of the last
reply byte. -/
def Obligations.ConfirmingRereadDecidesTheResponse : Prop :=
  ∀ (s : State) (r0 r1 r2 e0 e1 e2 c h l : Byte) (rest : List Byte), s.ready →
    (∀ d : Word32, ampValid d = true →
      s.chip.answers = .oracle (r0 :: r1 :: r2 :: e0 :: e1 :: e2 :: c :: h :: l :: rest) →
      ∃ t, exec (.setCurrent d) s = .next t ∧ t.rspData = currentOf s.params.kq (h ++ l)) ∧
    (∀ d : Reg16, ustepValid d = true →
      s.chip.answers = .oracle (r0 :: r1 :: r2 :: e0 :: e1 :: e2 :: c :: h :: l :: rest) →
      ∃ t, exec (.setMicrosteps d) s = .next t ∧ t.rspData = microstepsOf (h ++ l)) ∧
    (∀ d : Word32, ampValid d = false → s.chip.answers = .oracle (c :: h :: l :: rest) →
      ∃ t, exec (.setCurrent d) s = .next t ∧ t.rspData = currentOf s.params.kq (h ++ l)) ∧
    (∀ d : Reg16, ustepValid d = false → s.chip.answers = .oracle (c :: h :: l :: rest) →
      ∃ t, exec (.setMicrosteps d) s = .next t ∧ t.rspData = microstepsOf (h ++ l))

/-! ### Rules of the whole machine -/

/-- R190: no instruction and no operand value stops the block. Every instruction completes from every ready state, but
for the reference device at an unnamed address, which is the model's refusal and no state of the block (R193). -/
def Obligations.NoOperandStopsTheBlock : Prop :=
  ∀ (i : Instr) (s : State), s.ready →
    (s.chip.answers ≠ .reference ∨
      (∀ a, (i = .getRegister a ∨ i = .tRead a) → (a.extractLsb' 0 4).toNat < 8) ∧
      (∀ a v, (i = .setRegister a v ∨ i = .tWrite a v) → (a.extractLsb' 0 4).toNat < 8)) →
    Completes (exec i s)

/-- R26, R35, R161: no state of one operation is seen by the next. What the latches and the response register hold when a
host operation starts changes nothing of its outcome: every accessor performs a fresh read. -/
def Obligations.HostOperationsKeepNoShadow : Prop :=
  ∀ (i : Instr) (s : State) (lat : Latches) (valid : Bool) (data : Word32),
    (∀ a, i ≠ .tRead a) → (∀ a v, i ≠ .tWrite a v) →
    exec i { s with lat := lat, rspValid := valid, rspData := data } = exec i s

/-- R203: the level of `ENABLE` has no effect on any other rule. Every instruction but `enable_current` does exactly the
same with the motor power on or off, and leaves it as it was. -/
def Obligations.MotorPowerChangesNothingElse : Prop :=
  ∀ (i : Instr) (s t : State) (b : Level), (∀ e, i ≠ .enableCurrent e) → exec i s = .next t →
    t.pins.enable = s.pins.enable ∧
      exec i { s with pins := { s.pins with enable := b } } = .next { t with pins := { t.pins with enable := b } }

/-- R21, R223: no instruction, step or fine-grained step changes the handle or `KQ`; no instruction writes the mode pins; a
step or fine-grained step that is no reset (the input low and no reset asked for at the head of the host's list) leaves them
as they were, and any other leaves them so or at the levels of R220. -/
def Obligations.HandleAndModePinsNeverChange : Prop :=
  (∀ s t : State, step s = .next t → t.params = s.params) ∧
  (∀ s t : State, tick s = .next t → t.params = s.params) ∧
  (∀ (i : Instr) (s t : State), exec i s = .next t →
    t.pins.mode1 = s.pins.mode1 ∧ t.pins.mode2 = s.pins.mode2) ∧
  (∀ s t : State, s.resetLine = false → (∀ later, s.host ≠ .reset :: later) → step s = .next t ∨ tick s = .next t →
    t.pins.mode1 = s.pins.mode1 ∧ t.pins.mode2 = s.pins.mode2) ∧
  (∀ s t : State, step s = .next t ∨ tick s = .next t →
    (t.pins.mode1 = s.pins.mode1 ∧ t.pins.mode2 = s.pins.mode2) ∨ (t.pins.mode1 = false ∧ t.pins.mode2 = true))

/-- R232, Table T1: the lower bounds on duration, from the events each instruction adds to the trace. -/
def Obligations.DurationsOfTableT1 : Prop :=
  ∀ s t : State,
    (∀ a, exec (.tRead a) s = .next t → micros (newEvents s t) = 424) ∧
    (∀ a v, exec (.tWrite a v) s = .next t → micros (newEvents s t) = 624) ∧
    (exec .getCurrent s = .next t → micros (newEvents s t) = 424) ∧
    (exec .getMicrosteps s = .next t → micros (newEvents s t) = 424) ∧
    (∀ a, exec (.getRegister a) s = .next t → micros (newEvents s t) = 424) ∧
    (∀ a v, exec (.setRegister a v) s = .next t → micros (newEvents s t) = 624) ∧
    (∀ d, exec (.setCurrent d) s = .next t → micros (newEvents s t) = if ampValid d then 1472 else 424) ∧
    (∀ d, exec (.setMicrosteps d) s = .next t → micros (newEvents s t) = if ustepValid d then 1472 else 424) ∧
    (∀ b, exec (.enableCurrent b) s = .next t → micros (newEvents s t) = 0)

/-! ### Reset -/

/-- R220, R221, R222, Table S4: the state after reset: the four pins, the four pin events and no other (in some order: R221
lets no claim depend on it), `SCK` idle high, the block idle with nothing held and no response, the engine with `BUSCFG`,
the device holding `DEV_INIT`, whatever that is. -/
def Obligations.ResetEstablishesTheStartupState : Prop :=
  let s := State.reset
  s.pins.mode1 = false ∧ s.pins.mode2 = true ∧ s.pins.enable = false ∧ s.pins.cs = true ∧
    s.trace.Perm [.pin .mode1 false, .pin .mode2 true, .pin .enable false, .pin .cs true] ∧
    s.sck = true ∧ s.busHeld = false ∧ s.seq = .idle ∧ s.busy = false ∧ s.cmdReady = true ∧ s.rspValid = false ∧
    s.engine = { clockHz := 1000000, bitOrder := .msbFirst, clkMode := .idleHighTrailing } ∧
    s.params.handle.bus = { clockHz := 1000000, bitOrder := .msbFirst, clkMode := .idleHighTrailing } ∧
    (∀ a : BitVec 4, s.chip.regs.read a = Config.devInit (a.extractLsb' 0 3))

/-- R224: reset of an idle block, by the reset input or asked for at the head of the host's list (`later` is the list after
it), re-establishes the state of R220 and puts nothing on the bus; the device holds whatever it held (R222). That the trace
starts again is the model's reading (assumption 7), and so is that the reset input falls and comes before the list
(assumption 13). -/
def Obligations.ResetWhileIdleReestablishes : Prop :=
  ∀ (s : State) (later : List HostReq), s.ready →
    (s.resetLine = true ∧ later = s.host) ∨ (s.resetLine = false ∧ s.host = .reset :: later) →
    ∃ t : State, step s = .next t ∧ t.pins = { mode1 := false, mode2 := true, enable := false, cs := true } ∧
      t.trace.Perm [.pin .mode1 false, .pin .mode2 true, .pin .enable false, .pin .cs true] ∧ t.busHeld = false ∧
      t.engine = { clockHz := 1000000, bitOrder := .msbFirst, clkMode := .idleHighTrailing } ∧
      t.sck = true ∧ t.seq = .idle ∧ t.rspValid = false ∧ t.delayTimer = 0 ∧ t.params = s.params ∧ t.host = later ∧
      t.resetLine = false ∧ t.chip = s.chip

/-- R224: reset applied while an operation runs is refused, by a step and by a fine-grained step. -/
def Obligations.ResetWhileBusyIsRefused : Prop :=
  ∀ (s : State) (i : Instr) (pos : Nat), s.params.wf = true → s.seq = .running i pos → s.resetLine = true →
    step s = .refused .resetWhileBusy ∧ tick s = .refused .resetWhileBusy

/-! ### The sequencer and the invariant -/

/-- R160, R234: while an operation runs the block accepts nothing: a fine-grained step leaves the host's list alone and
moves the position on by one event, or to idle after the last. -/
def Obligations.BusyBlockAcceptsNothing : Prop :=
  ∀ (s t : State) (i : Instr) (pos : Nat), s.seq = .running i pos → tick s = .next t →
    t.host = s.host ∧
      ((pos + 1 < (program i).length ∧ t.seq = .running i (pos + 1)) ∨ ((program i).length ≤ pos + 1 ∧ t.seq = .idle)) ∧
      (pos < (program i).length → ∃ e : Event, t.trace = s.trace ++ [e])

/-- The whole step is the fine-grained machine run to the response: every step of every state, whatever its outcome, is
that many fine-grained steps (R27, R160; that a step is a whole instruction is assumption 9). -/
def Obligations.StepIsTheSequencerRunToItsEnd : Prop :=
  ∀ s : State, ticks (ticksOf s) s = step s

/-- The invariant holds after reset (R220, Table S4). -/
def Obligations.ResetSatisfiesTheInvariant : Prop := Invariant State.reset

/-- Every step keeps the invariant: every frame put on the wire is whole and framed, with its delays and a legal command
byte (R81 to R84, R93, R113, R117), and between operations chip-select is high, the bus free and the clock idle (R235). The invariant's clause on the delay timer
is R199's where the timer is idle; its value just after a delay is the model's reading (assumption 14). -/
def Obligations.StepKeepsTheInvariant : Prop :=
  ∀ s t : State, Invariant s → step s = .next t → Invariant t

/-- Every fine-grained step keeps the invariant too: inside an operation chip-select, `bus_held`, the delay timer and the
trace are those of the sequencer's position (R27, R28, R113, R199). That the timer reads 200 from a delay event to the next
event is no word of R199 but the model's reading (assumption 14). -/
def Obligations.TickKeepsTheInvariant : Prop :=
  ∀ s t : State, Invariant s → tick s = .next t → Invariant t

/-- R111, R112, R114: the precondition of every primitive is met wherever the sequencer runs it. -/
def Obligations.PreconditionsAreAlwaysMet : Prop :=
  ∀ (s : State) (i : Instr) (pos : Nat) (m : Micro), Invariant s → s.seq = .running i pos → (program i)[pos]? = some m →
    m.precondition s
end

