-- ==== Sys2Proof/Laws/Decode.lean ====
section
/-! SUPPORT. The fields of a command word that was put together are the fields it was put together from. -/

namespace Sys2Proof

@[simp] theorem opField_commandWord (op : BitVec 4) (a : Byte) (arg : Word32) :
    opField (commandWord op a arg) = op := by
  apply BitVec.eq_of_getLsbD_eq
  intro i hi
  simp only [opField, commandWord, BitVec.getLsbD_extractLsb', BitVec.getLsbD_append]
  simp [hi, show ¬ 40 + i < 32 by omega, show ¬ 40 + i - 32 < 8 by omega, show 40 + i - 32 - 8 = i by omega]

@[simp] theorem aField_commandWord (op : BitVec 4) (a : Byte) (arg : Word32) :
    aField (commandWord op a arg) = a := by
  apply BitVec.eq_of_getLsbD_eq
  intro i hi
  simp only [aField, commandWord, BitVec.getLsbD_extractLsb', BitVec.getLsbD_append]
  simp [hi]

@[simp] theorem argField_commandWord (op : BitVec 4) (a : Byte) (arg : Word32) :
    argField (commandWord op a arg) = arg := by
  apply BitVec.eq_of_getLsbD_eq
  intro i hi
  simp only [argField, commandWord, BitVec.getLsbD_extractLsb', BitVec.getLsbD_append]
  simp [hi]

/-- A command word is put together from its three fields. -/
theorem commandWord_fields (w : CmdWord) : commandWord (opField w) (aField w) (argField w) = w := by
  apply BitVec.eq_of_getLsbD_eq
  intro i hi
  simp only [opField, aField, argField, commandWord, BitVec.getLsbD_extractLsb', BitVec.getLsbD_append]
  by_cases h1 : i < 32
  · simp [h1]
  · by_cases h2 : i - 32 < 8
    · simp [h1, h2, show 32 + (i - 32) = i by omega]
    · simp [h1, h2, show i - 32 - 8 < 4 by omega, show 40 + (i - 32 - 8) = i by omega]

/-- The bits of a frame put together from a command byte and the data bits. -/
theorem getLsbD_frame (c : Byte) (v : Reg16) (i : Nat) :
    (c ++ v : FrameWord).getLsbD i = if i < 16 then v.getLsbD i else c.getLsbD (i - 16) := BitVec.getLsbD_append

/-- What the decoder answers, by the operation code. -/
theorem decodeCommand_commandWord (op : BitVec 4) (a : Byte) (arg : Word32) :
    decodeCommand (commandWord op a arg) =
      match op.toNat with
      | 0 => .ok (.enableCurrent (arg.getLsbD 0))
      | 1 => .ok .getCurrent
      | 2 => .ok (.setCurrent arg)
      | 3 => .ok .getMicrosteps
      | 4 => .ok (.setMicrosteps (arg.extractLsb' 0 16))
      | 5 => .ok (.getRegister a)
      | 6 => .ok (.setRegister a (arg.extractLsb' 0 16))
      | _ => .error (.reservedOp op) := by
  unfold decodeCommand
  simp only [opField_commandWord, aField_commandWord, argField_commandWord] <;> rfl

end Sys2Proof
end

