-- ==== Sys2Proof/Laws/State.lean ====
section
/-! SUPPORT. One lemma per field per primitive, true by `rfl`, so that no later proof unfolds a record update, and the
bit-level transfer returns what the device put on the line. -/

namespace Sys2Proof.Machine

/-! ### The serial engine -/

@[simp] theorem idleLevel_eq (m : ClkMode) : ClkMode.idleLevel m = true := by cases m; rfl

/-- A byte assembled bit by bit is the byte that was sent (R115). -/
@[simp] theorem shiftByte_rx (cfg : BusCfg) (tx miso : Byte) : (shiftByte cfg tx miso).rx = miso := by
  obtain ⟨hz, ⟨⟩, ⟨⟩⟩ := cfg
  have h : ∀ m : Byte, (shiftByte Config.buscfg 0 m).rx = m := by decide
  exact h miso

/-! ### `record` -/

section record
variable (e : Event) (s : State)
@[simp] theorem record_params : (record e s).params = s.params := rfl
@[simp] theorem record_pins : (record e s).pins = s.pins := rfl
@[simp] theorem record_sck : (record e s).sck = s.sck := rfl
@[simp] theorem record_mosi : (record e s).mosi = s.mosi := rfl
@[simp] theorem record_engine : (record e s).engine = s.engine := rfl
@[simp] theorem record_busHeld : (record e s).busHeld = s.busHeld := rfl
@[simp] theorem record_seq : (record e s).seq = s.seq := rfl
@[simp] theorem record_lat : (record e s).lat = s.lat := rfl
@[simp] theorem record_rspValid : (record e s).rspValid = s.rspValid := rfl
@[simp] theorem record_rspData : (record e s).rspData = s.rspData := rfl
@[simp] theorem record_resetLine : (record e s).resetLine = s.resetLine := rfl
@[simp] theorem record_host : (record e s).host = s.host := rfl
@[simp] theorem record_chip : (record e s).chip = s.chip := rfl
@[simp] theorem record_draws : (record e s).draws = s.draws := rfl
@[simp] theorem record_trace : (record e s).trace = s.trace ++ [e] := rfl
end record

/-! ### `dropResponse` -/

section dropResponse
variable (s : State)
@[simp] theorem dropResponse_params : (dropResponse s).params = s.params := rfl
@[simp] theorem dropResponse_pins : (dropResponse s).pins = s.pins := rfl
@[simp] theorem dropResponse_sck : (dropResponse s).sck = s.sck := rfl
@[simp] theorem dropResponse_mosi : (dropResponse s).mosi = s.mosi := rfl
@[simp] theorem dropResponse_engine : (dropResponse s).engine = s.engine := rfl
@[simp] theorem dropResponse_busHeld : (dropResponse s).busHeld = s.busHeld := rfl
@[simp] theorem dropResponse_delayTimer : (dropResponse s).delayTimer = s.delayTimer := rfl
@[simp] theorem dropResponse_seq : (dropResponse s).seq = s.seq := rfl
@[simp] theorem dropResponse_lat : (dropResponse s).lat = s.lat := rfl
@[simp] theorem dropResponse_rspValid : (dropResponse s).rspValid = false := rfl
@[simp] theorem dropResponse_rspData : (dropResponse s).rspData = Config.freeRsp s.draws := rfl
@[simp] theorem dropResponse_resetLine : (dropResponse s).resetLine = s.resetLine := rfl
@[simp] theorem dropResponse_host : (dropResponse s).host = s.host := rfl
@[simp] theorem dropResponse_chip : (dropResponse s).chip = s.chip.drift s.draws := rfl
@[simp] theorem dropResponse_draws : (dropResponse s).draws = s.draws + 1 := rfl
@[simp] theorem dropResponse_trace : (dropResponse s).trace = s.trace := rfl
end dropResponse

/-! ### `applyReset` -/

section applyReset
variable (s : State)
@[simp] theorem applyReset_params : (applyReset s).params = s.params := rfl
@[simp] theorem applyReset_pins : (applyReset s).pins = Pins.startup := rfl
@[simp] theorem applyReset_engine : (applyReset s).engine = s.params.handle.bus := rfl
@[simp] theorem applyReset_busHeld : (applyReset s).busHeld = false := rfl
@[simp] theorem applyReset_delayTimer : (applyReset s).delayTimer = 0 := rfl
@[simp] theorem applyReset_seq : (applyReset s).seq = .idle := rfl
@[simp] theorem applyReset_rspValid : (applyReset s).rspValid = false := rfl
@[simp] theorem applyReset_resetLine : (applyReset s).resetLine = false := rfl
@[simp] theorem applyReset_host : (applyReset s).host = s.host := rfl
@[simp] theorem applyReset_chip : (applyReset s).chip = s.chip := rfl
@[simp] theorem applyReset_trace : (applyReset s).trace = startupTrace := rfl
@[simp] theorem applyReset_sck : (applyReset s).sck = true := idleLevel_eq s.params.handle.bus.clkMode
end applyReset

/-! ### The primitives: what each writes; `record` and the record update say the rest -/

section primitives
variable (s : State)
@[simp] theorem pinWrite_pins (p : Pin) (l : Level) : (pinWrite p l s).pins = s.pins.drive p l := rfl
@[simp] theorem pinWrite_chip (p : Pin) (l : Level) : (pinWrite p l s).chip = s.chip.seePin p l := rfl
@[simp] theorem pinWrite_trace (p : Pin) (l : Level) : (pinWrite p l s).trace = s.trace ++ [.pin p l] := rfl
@[simp] theorem pinWrite_delayTimer (p : Pin) (l : Level) : (pinWrite p l s).delayTimer = 0 := rfl
@[simp] theorem busBegin_busHeld : (busBegin s).busHeld = true := rfl
@[simp] theorem busBegin_engine : (busBegin s).engine = s.params.handle.bus := rfl
@[simp] theorem busBegin_trace : (busBegin s).trace = s.trace ++ [.busBegin] := rfl
@[simp] theorem busEnd_busHeld : (busEnd s).busHeld = false := rfl
@[simp] theorem busEnd_trace : (busEnd s).trace = s.trace ++ [.busEnd] := rfl
@[simp] theorem delayUs_delayTimer (us : Nat) : (delayUs us s).delayTimer = us := rfl
@[simp] theorem delayUs_trace (us : Nat) : (delayUs us s).trace = s.trace ++ [.delay us] := rfl
@[simp] theorem respond_rspValid (op : BitVec 4) (d : Word32) : (respond op d s).rspValid = true := rfl
@[simp] theorem respond_rspData (op : BitVec 4) (d : Word32) : (respond op d s).rspData = d := rfl
@[simp] theorem respond_trace (op : BitVec 4) (d : Word32) : (respond op d s).trace = s.trace ++ [.rsp op d] := rfl
end primitives

/-! ### The device registers: read after write -/

/-- A named register reads as what was written to it, and every other as before (R55, R63). -/
theorem devRegs_read_write (r : DevRegs) (a x : BitVec 4) (v : Reg16) (ha : named a = true) (hx : named x = true) :
    (r.write a v).read x = if x = a then v else r.read x := by
  revert ha hx
  have key : ∀ y : BitVec 4, named y = true → y = 0#4 ∨ y = 1#4 ∨ y = 2#4 ∨ y = 3#4 ∨ y = 4#4 ∨ y = 5#4 ∨ y = 6#4 ∨
      y = 7#4 := by decide
  intro ha hx
  rcases key a ha with rfl | rfl | rfl | rfl | rfl | rfl | rfl | rfl <;>
    rcases key x hx with rfl | rfl | rfl | rfl | rfl | rfl | rfl | rfl <;> rfl

end Sys2Proof.Machine
end

