-- ==== Sys2Proof/Laws/Transport.lean ====
section
/-! SUPPORT. One lemma per frame: all that a read frame or a write frame can do to the state, from its bus begin to its
bus end, whatever answers. Everything the chip does in a frame is in `Chip.exchange`; its three lemmas say what the
replies and the registers are. -/

namespace Sys2Proof.Machine

@[simp] theorem except_bind_ok {ε α β : Type} (a : α) (f : α → Except ε β) : (Except.ok a >>= f) = f a := rfl
@[simp] theorem except_bind_error {ε α β : Type} (e : ε) (f : α → Except ε β) :
    ((Except.error e : Except ε α) >>= f) = .error e := rfl

/-! ### The chip's side of a frame -/

/-- The chip's side of one frame: selected, three bytes answered, deselected. -/
def Chip.exchange (n : Nat) (b0 b1 b2 : Byte) (c : Chip) : Except Refusal ((Byte × Byte × Byte) × Chip) := do
  let (r0, c) ← (c.select false).answer n b0
  let (r1, c) ← c.answer (n + 1) b1
  let (r2, c) ← c.answer (n + 2) b2
  .ok ((r0, r1, r2), c.select true)

/-- Whatever answers, but for the reference device at an unnamed address, the frame runs (R62, R190). -/
theorem exchange_ok (n : Nat) (b0 b1 b2 : Byte) (c : Chip) (h : c.takes b0 = true) :
    ∃ r0 r1 r2 c', c.exchange n b0 b1 b2 = .ok ((r0, r1, r2), c') := by
  obtain ⟨regs, ans, fr⟩ := c
  cases ans with
  | floating b => simp [Chip.exchange, Chip.select, Chip.answer, Chip.drift]
  | reference =>
    have h : named (addrOf b0) = true := h
    simp [Chip.exchange, Chip.select, Chip.answer, refusedByte, h]
  | oracle rs =>
    match rs with
    | [] => simp [Chip.exchange, Chip.select, Chip.answer, Chip.drift]
    | [_] => simp [Chip.exchange, Chip.select, Chip.answer, Chip.drift]
    | [_, _] => simp [Chip.exchange, Chip.select, Chip.answer, Chip.drift]
    | _ :: _ :: _ :: _ => simp [Chip.exchange, Chip.select, Chip.answer, Chip.drift]

/-- The reference device's frame to a named address: the register's bytes for a read, draws for a write; the registers
as after the frame (R63). -/
theorem exchange_reference (n : Nat) (b0 b1 b2 : Byte) (regs : DevRegs) (fr : List Byte)
    (h : named (addrOf b0) = true) :
    Chip.exchange n b0 b1 b2 ⟨regs, .reference, fr⟩ =
      .ok ((Config.freeReply n, if b0.getLsbD 7 then hiByte (regs.read (addrOf b0)) else Config.freeReply (n + 1),
            if b0.getLsbD 7 then loByte (regs.read (addrOf b0)) else Config.freeReply (n + 2)),
          ⟨regs.afterFrame [b0, b1, b2], .reference, []⟩) := by
  simp [Chip.exchange, Chip.select, Chip.answer, refusedByte, h, DevRegs.reply]

/-- The reference device refuses a frame to an unnamed address (R63, U4). -/
theorem exchange_refused (n : Nat) (b0 b1 b2 : Byte) (regs : DevRegs) (fr : List Byte)
    (h : named (addrOf b0) = false) :
    Chip.exchange n b0 b1 b2 ⟨regs, .reference, fr⟩ = .error (.unnamedAddress (addrOf b0)) := by
  simp [Chip.exchange, Chip.select, Chip.answer, refusedByte, h]

/-- In the general model the next three listed replies are the frame's (R62). -/
theorem exchange_oracle (n : Nat) (b0 b1 b2 r0 r1 r2 : Byte) (rs : List Byte) (regs : DevRegs) (fr : List Byte) :
    Chip.exchange n b0 b1 b2 ⟨regs, .oracle (r0 :: r1 :: r2 :: rs), fr⟩ =
      .ok ((r0, r1, r2), ⟨DevRegs.free (n + 2), .oracle rs, []⟩) := by
  simp [Chip.exchange, Chip.select, Chip.answer, Chip.drift]

/-- With no device every reply is the line's constant (R62, U3). -/
theorem exchange_floating (n : Nat) (b0 b1 b2 b : Byte) (regs : DevRegs) (fr : List Byte) :
    Chip.exchange n b0 b1 b2 ⟨regs, .floating b, fr⟩ =
      .ok ((b, b, b), ⟨DevRegs.free (n + 2), .floating b, []⟩) := by
  simp [Chip.exchange, Chip.select, Chip.answer, Chip.drift]

/-! ### The block's side of a frame -/

/-- The state after a frame: the pins, lines, engine and bus released, the replies in the latches, the events in the
trace; every other field as before. -/
def afterFrame (es : List Event) (lat : Latches) (chip : Chip) (sq : Seq) (s : State) : State :=
  { s with
    pins := { s.pins with cs := true }
    sck := true
    mosi := Config.freeMosi (s.draws + 2)
    engine := s.params.handle.bus
    busHeld := false
    delayTimer := 0
    seq := sq
    lat := lat
    chip := chip
    draws := s.draws + 3
    trace := s.trace ++ es }

/-- The chip's side of a read frame from a state. -/
def readExchange (a : Byte) (s : State) : Except Refusal ((Byte × Byte × Byte) × Chip) :=
  s.chip.exchange s.draws (readCommand a) 0 0

/-- The chip's side of a write frame from a state. -/
def writeExchange (a : Byte) (v : Reg16) (s : State) : Except Refusal ((Byte × Byte × Byte) × Chip) :=
  s.chip.exchange s.draws (writeCommand a) (hiByte v) (loByte v)

/-- The state after a read frame with the replies and the chip `r`. -/
def afterRead (a : Byte) (last : RxDest) (sq : Seq) (s : State) (r : (Byte × Byte × Byte) × Chip) : State :=
  afterFrame (readEvents a r.1.1 r.1.2.1 r.1.2.2) (last.store r.1.2.2 { s.lat with rxh := r.1.2.1 }) r.2 sq s

/-- The state after a write frame with the replies and the chip `r`. -/
def afterWrite (a : Byte) (v : Reg16) (sq : Seq) (s : State) (r : (Byte × Byte × Byte) × Chip) : State :=
  afterFrame (writeEvents a v r.1.1 r.1.2.1 r.1.2.2) { s.lat with rxh := r.1.2.1, rxl := r.1.2.2 } r.2 sq s

/-- The state after the response. -/
def afterResponse (op : BitVec 4) (k : ResultKind) (s : State) : State :=
  { respond op (k.value s.params.kq s.lat) s with seq := .idle }

/-- All that a read frame does (R120). -/
theorem run_readFrame (i : Instr) (pos : Nat) (a : Byte) (last : RxDest) (rest : List Micro) (s : State) :
    runFrom i pos (readFrame a last ++ rest) s =
      readExchange a s >>= fun r => runFrom i (pos + 9) rest (afterRead a last (Seq.after i (pos + 9) rest) s r) := by
  simp only [readExchange, afterRead, Chip.exchange, readFrame, List.cons_append, List.nil_append, runFrom, Micro.run, busBegin, busEnd,
    pinWrite, delayUs, record, xfer, except_bind_ok, Seq.after, Pins.drive, Chip.seePin, TxByte.value, Config.dummy,
    RxDest.store, shiftByte_rx, idleLevel_eq]
  rcases (s.chip.select false).answer s.draws (readCommand a) with e | ⟨r0, c0⟩
  · rfl
  · simp only [except_bind_ok]
    rcases c0.answer (s.draws + 1) 0 with e | ⟨r1, c1⟩
    · rfl
    · simp only [except_bind_ok]
      rcases c1.answer (s.draws + 2) 0 with e | ⟨r2, c2⟩
      · rfl
      · simp [afterFrame, readEvents, readCommand, Config.readBit, Config.tSettle, BitVec.or_comm]

/-- All that a write frame does (R121). The value is computed from the latches before the frame; its replies do not
change it. -/
theorem run_writeFrame (i : Instr) (pos : Nat) (a : Byte) (v : WriteValue) (rest : List Micro) (s : State) :
    runFrom i pos (writeFrame a v ++ rest) s =
      writeExchange a (v.value s.lat) s >>= fun r =>
        runFrom i (pos + 10) rest (afterWrite a (v.value s.lat) (Seq.after i (pos + 10) rest) s r) := by
  have hv : ∀ (l : Latches) (b : Byte), v.value { l with rxh := b } = v.value l := by
    intro l b; cases v <;> rfl
  simp only [writeExchange, afterWrite, Chip.exchange, writeFrame, List.cons_append, List.nil_append, runFrom, Micro.run, busBegin, busEnd,
    pinWrite, delayUs, record, xfer, except_bind_ok, Seq.after, Pins.drive, Chip.seePin, TxByte.value,
    RxDest.store, shiftByte_rx, idleLevel_eq]
  rcases (s.chip.select false).answer s.draws (writeCommand a) with e | ⟨r0, c0⟩
  · rfl
  · simp only [except_bind_ok]
    rcases c0.answer (s.draws + 1) (hiByte (v.value s.lat)) with e | ⟨r1, c1⟩
    · rfl
    · have h1 : v.value { s.lat with rxh := r1 } = v.value s.lat := hv s.lat r1
      simp only [except_bind_ok, h1]
      rcases c1.answer (s.draws + 2) (loByte (v.value s.lat)) with e | ⟨r2, c2⟩
      · rfl
      · simp [afterFrame, writeEvents, writeCommand, hiByte, loByte, Config.tSettle, Config.tPost]

/-- The response ends the operation (R160). The proofs of this and of the equations below stand in parentheses so that
`simp` rewrites with them instead of leaving the kernel to unfold whole states. -/
theorem run_respond (i : Instr) (pos : Nat) (op : BitVec 4) (k : ResultKind) (s : State) :
    runFrom i pos [.respond op k] s = .ok (afterResponse op k s) := (rfl)

/-- Nothing is left. -/
theorem run_nil (i : Instr) (pos : Nat) (s : State) : runFrom i pos [] s = .ok { s with seq := .idle } := (rfl)

/-! ### The position after a frame, and the value of a write -/

theorem seq_after_nil (i : Instr) (pos : Nat) : Seq.after i pos [] = .idle := (rfl)
theorem seq_after_respond (i : Instr) (pos : Nat) (op : BitVec 4) (k : ResultKind) :
    Seq.after i pos [.respond op k] = .running i pos := (rfl)
theorem seq_after_readFrame (i : Instr) (pos : Nat) (a : Byte) (last : RxDest) (rest : List Micro) :
    Seq.after i pos (readFrame a last ++ rest) = .running i pos := (rfl)
theorem seq_after_writeFrame (i : Instr) (pos : Nat) (a : Byte) (v : WriteValue) (rest : List Micro) :
    Seq.after i pos (writeFrame a v ++ rest) = .running i pos := (rfl)
theorem value_word (l : Latches) (v : Reg16) : WriteValue.value l (.word v) = v := (rfl)
theorem value_torqueIns (l : Latches) : WriteValue.value l .torqueIns = Machine.torqueIns l.t l.raw := (rfl)
theorem value_ctrlIns (l : Latches) : WriteValue.value l .ctrlIns = Machine.ctrlIns l.t l.e := (rfl)

/-! ### The read-modify-write of the set operations (R166, R168) -/

/-- A read frame into `t` and a write frame of a value made from the latches, one after the other. -/
def updateFrames (i : Instr) (pos : Nat) (a : Byte) (v : WriteValue) (s : State) : Except Refusal State :=
  readExchange a s >>= fun r =>
    writeExchange a (v.value (afterRead a .lowAndT (.running i (pos + 9)) s r).lat)
        (afterRead a .lowAndT (.running i (pos + 9)) s r) >>= fun q =>
      .ok (afterWrite a (v.value (afterRead a .lowAndT (.running i (pos + 9)) s r).lat) (.running i (pos + 9 + 10))
        (afterRead a .lowAndT (.running i (pos + 9)) s r) q)

/-- All that a read-modify-write does, before a further read frame. -/
theorem run_update (i : Instr) (pos : Nat) (a b : Byte) (v : WriteValue) (last : RxDest) (rest : List Micro)
    (s : State) :
    runFrom i pos (readFrame a .lowAndT ++ (writeFrame a v ++ (readFrame b last ++ rest))) s =
      updateFrames i pos a v s >>= fun s' => runFrom i (pos + 9 + 10) (readFrame b last ++ rest) s' := by
  rw [run_readFrame, updateFrames]
  cases readExchange a s with
  | error e => rfl
  | ok r =>
    rw [except_bind_ok, except_bind_ok, seq_after_writeFrame, run_writeFrame]
    generalize afterRead a .lowAndT (.running i (pos + 9)) s r = s1
    cases writeExchange a (v.value s1.lat) s1 with
    | error e => rfl
    | ok q => rw [except_bind_ok, except_bind_ok, except_bind_ok, seq_after_readFrame]

/-! ### Acceptance -/

/-- The state in which an instruction's sequence starts. -/
def accepted (i : Instr) (s : State) : State :=
  { dropResponse s with seq := .running i 0, lat := s.lat.load s.params.kq i }

/-- From a ready state every instruction is accepted (R25, R160). -/
theorem accept_ready (i : Instr) (s : State) (h : s.ready) : accept i s = .ok (accepted i s) := by
  obtain ⟨hw, hs⟩ := h
  simp [accept, hw, hs, State.busy, accepted]

/-- Time passing changes nothing of what the chip will answer to a frame. -/
@[simp] theorem drift_takes (n : Nat) (c : Chip) (a : Byte) : (c.drift n).takes a = c.takes a := by
  obtain ⟨regs, ans, fr⟩ := c
  cases ans <;> rfl

end Sys2Proof.Machine
end

