-- ==== Sys2Proof/Laws/Exec.lean ====
section
/-! SUPPORT. One equation per instruction: from a ready state, all that `exec` does, in terms of the chip's side of each
frame (`Chip.exchange`) and the block's side of it (`afterFrame`). Beside them, what an exchange answers, said once for
every kind of chip (`exchange_spec`). -/

namespace Sys2Proof.Machine

/-! ### Addresses and command bytes -/

theorem named_iff : ∀ a : BitVec 4, named a = true ↔ a.toNat < 8 := by decide
theorem addrOf_readCommand : ∀ a : Byte, addrOf (readCommand a) = addrOf a := by decide
theorem addrOf_writeCommand : ∀ a : Byte, addrOf (writeCommand a) = addrOf a := by decide
theorem readCommand_flag : ∀ a : Byte, (readCommand a).getLsbD 7 = true := by decide
theorem writeCommand_flag : ∀ a : Byte, (writeCommand a).getLsbD 7 = false := by decide

@[simp] theorem takes_readCommand (c : Chip) (a : Byte) : c.takes (readCommand a) = c.takes a := by
  obtain ⟨r, ans, f⟩ := c
  cases ans <;> simp [Chip.takes, addrOf_readCommand]

@[simp] theorem takes_writeCommand (c : Chip) (a : Byte) : c.takes (writeCommand a) = c.takes a := by
  obtain ⟨r, ans, f⟩ := c
  cases ans <;> simp [Chip.takes, addrOf_writeCommand]

/-- Every chip gives a frame to a named address a meaning. -/
theorem takes_named (c : Chip) (a : Byte) (h : named (addrOf a) = true) : c.takes a = true := by
  obtain ⟨r, ans, f⟩ := c
  cases ans <;> simp [Chip.takes, h]

/-! ### Bytes -/

/-- The bits of a 16-bit value put together from two bytes. -/
theorem getLsbD_joined (h l : Byte) (i : Nat) :
    (h ++ l : Reg16).getLsbD i = if i < 8 then l.getLsbD i else h.getLsbD (i - 8) := BitVec.getLsbD_append

/-- A value is put together again from its halves (R53). -/
@[simp] theorem joinBytes_halves (v : Reg16) : joinBytes (hiByte v) (loByte v) = v := by
  apply BitVec.eq_of_getLsbD_eq
  intro i hi
  rw [joinBytes, getLsbD_joined]
  simp only [hiByte, loByte, BitVec.getLsbD_extractLsb']
  by_cases h : i < 8
  · simp [h]
  · simp [h, show i - 8 < 8 by omega, show 8 + (i - 8) = i by omega]

/-- The torque code is the low reply byte. -/
theorem torqueGet_joined (h l : Byte) : torqueGet (h ++ l) = l := by
  apply BitVec.eq_of_getLsbD_eq
  intro i hi
  simp only [torqueGet, BitVec.getLsbD_extractLsb', getLsbD_joined, Nat.zero_add]
  simp [hi]

/-- The exponent lies in the low reply byte. -/
theorem ctrlGet_joined (h l : Byte) : ctrlGet (h ++ l) = l.extractLsb' 3 4 := by
  apply BitVec.eq_of_getLsbD_eq
  intro i hi
  simp only [ctrlGet, BitVec.getLsbD_extractLsb', getLsbD_joined]
  simp [show 3 + i < 8 by omega]

/-! ### The chip -/

@[simp] theorem drift_answers (n : Nat) (c : Chip) : (c.drift n).answers = c.answers := by
  obtain ⟨r, ans, f⟩ := c
  cases ans <;> rfl

theorem drift_reference (n : Nat) (c : Chip) (h : c.answers = .reference) : c.drift n = c := by
  simp [Chip.drift, h]

/-- What an exchange with a chip that takes it answers, for each kind of chip. -/
theorem exchange_spec (n : Nat) (b0 b1 b2 : Byte) (c : Chip) (h : c.takes b0 = true) :
    ∃ r0 r1 r2 c', c.exchange n b0 b1 b2 = .ok ((r0, r1, r2), c') ∧
      (c.answers = .reference → c'.answers = .reference ∧ c'.regs = c.regs.afterFrame [b0, b1, b2] ∧
        (b0.getLsbD 7 = true → r1 = hiByte (c.regs.read (addrOf b0)) ∧ r2 = loByte (c.regs.read (addrOf b0)))) ∧
      (∀ q0 q1 q2 qs, c.answers = .oracle (q0 :: q1 :: q2 :: qs) →
        r0 = q0 ∧ r1 = q1 ∧ r2 = q2 ∧ c'.answers = .oracle qs) ∧
      (∀ b, c.answers = .floating b → r1 = b ∧ r2 = b ∧ c'.answers = .floating b) ∧
      (∀ a, c'.takes a = c.takes a) := by
  obtain ⟨regs, ans, fr⟩ := c
  cases ans with
  | floating b => exact ⟨b, b, b, _, exchange_floating .., by simp, by simp, by simp, fun _ => rfl⟩
  | reference =>
    exact ⟨_, _, _, _, exchange_reference _ _ _ _ _ _ h, fun _ => ⟨rfl, rfl, fun hh => by simp [hh]⟩, by simp, by simp,
      fun _ => rfl⟩
  | oracle rs =>
    match rs with
    | [] => simp [Chip.exchange, Chip.select, Chip.answer, Chip.drift, Chip.takes]
    | [_] => simp [Chip.exchange, Chip.select, Chip.answer, Chip.drift, Chip.takes]
    | [_, _] => simp [Chip.exchange, Chip.select, Chip.answer, Chip.drift, Chip.takes]
    | _ :: _ :: _ :: _ => exact ⟨_, _, _, _, exchange_oracle .., by simp, by simp, by simp, fun _ => rfl⟩

/-! ### The instructions -/

theorem exec_tRead (a : Byte) (s : State) (h : s.ready) :
    exec (.tRead a) s =
      outcomeOf (readExchange a (accepted (.tRead a) s) >>= fun r =>
        .ok (afterRead a .low .idle (accepted (.tRead a) s) r)) := by
  simp only [exec, execTRead, runInstr, accept_ready _ _ h, except_bind_ok, tReadProgram]
  rw [← List.append_nil (readFrame a .low), run_readFrame]
  rfl

theorem exec_tWrite (a : Byte) (v : Reg16) (s : State) (h : s.ready) :
    exec (.tWrite a v) s =
      outcomeOf (writeExchange a v (accepted (.tWrite a v) s) >>= fun r =>
        .ok (afterWrite a v .idle (accepted (.tWrite a v) s) r)) := by
  simp only [exec, execTWrite, runInstr, accept_ready _ _ h, except_bind_ok, tWriteProgram]
  rw [← List.append_nil (writeFrame a _), run_writeFrame]
  rfl

theorem exec_enableCurrent (b : Level) (s : State) (h : s.ready) :
    exec (.enableCurrent b) s =
      .next (afterResponse 0 .zero
        { pinWrite .enable b (accepted (.enableCurrent b) s) with seq := .running (.enableCurrent b) 1 }) := by
  simp only [exec, execEnableCurrent, runInstr, accept_ready _ _ h, except_bind_ok, enableCurrentProgram]
  rfl

theorem exec_getCurrent (s : State) (h : s.ready) :
    exec .getCurrent s =
      outcomeOf (readExchange 1 (accepted .getCurrent s) >>= fun r =>
        .ok (afterResponse 1 .amperes (afterRead 1 .low (.running .getCurrent 9) (accepted .getCurrent s) r))) := by
  simp only [exec, execGetCurrent, runInstr, accept_ready _ _ h, except_bind_ok, getCurrentProgram, Config.torqueAddr]
  simp only [run_readFrame, run_respond, seq_after_respond, Nat.reduceAdd]

theorem exec_getMicrosteps (s : State) (h : s.ready) :
    exec .getMicrosteps s =
      outcomeOf (readExchange 0 (accepted .getMicrosteps s) >>= fun r =>
        .ok (afterResponse 3 .microsteps
          (afterRead 0 .low (.running .getMicrosteps 9) (accepted .getMicrosteps s) r))) := by
  simp only [exec, execGetMicrosteps, runInstr, accept_ready _ _ h, except_bind_ok, getMicrostepsProgram, Config.ctrlAddr]
  simp only [run_readFrame, run_respond, seq_after_respond, Nat.reduceAdd]

theorem exec_getRegister (a : Byte) (s : State) (h : s.ready) :
    exec (.getRegister a) s =
      outcomeOf (readExchange a (accepted (.getRegister a) s) >>= fun r =>
        .ok (afterResponse 5 .raw
          (afterRead a .low (.running (.getRegister a) 9) (accepted (.getRegister a) s) r))) := by
  simp only [exec, execGetRegister, runInstr, accept_ready _ _ h, except_bind_ok, getRegisterProgram]
  simp only [run_readFrame, run_respond, seq_after_respond, Nat.reduceAdd]

theorem exec_setRegister (a : Byte) (v : Reg16) (s : State) (h : s.ready) :
    exec (.setRegister a v) s =
      outcomeOf (writeExchange a v (accepted (.setRegister a v) s) >>= fun r =>
        .ok (afterResponse 6 .raw
          (afterWrite a v (.running (.setRegister a v) 10) (accepted (.setRegister a v) s) r))) := by
  simp only [exec, execSetRegister, runInstr, accept_ready _ _ h, except_bind_ok, setRegisterProgram]
  simp only [run_writeFrame, run_respond, seq_after_respond, value_word, Nat.reduceAdd]

/-- An out-of-range operand: the confirming read alone (R163). -/
theorem exec_setCurrent_skip (d : Word32) (s : State) (h : s.ready) (hd : ampValid d = false) :
    exec (.setCurrent d) s =
      outcomeOf (readExchange 1 (accepted (.setCurrent d) s) >>= fun r =>
        .ok (afterResponse 2 .amperes
          (afterRead 1 .low (.running (.setCurrent d) 9) (accepted (.setCurrent d) s) r))) := by
  simp only [exec, execSetCurrent, runInstr, accept_ready _ _ h, except_bind_ok, setCurrentProgram, Config.torqueAddr, hd, Bool.false_eq_true,
    if_false, List.nil_append]
  simp only [run_readFrame, run_respond, seq_after_respond, Nat.reduceAdd]

/-- The sequence for a valid operand. -/
theorem setCurrentProgram_valid (d : Word32) (hd : ampValid d = true) :
    setCurrentProgram d =
      readFrame 1 .lowAndT ++ (writeFrame 1 .torqueIns ++ (readFrame 1 .low ++ [.respond 2 .amperes])) := by
  rw [setCurrentProgram, if_pos hd, torqueUpdate, List.append_assoc, List.append_assoc]
  rfl

/-- A valid operand: read, write, read (R166). -/
theorem exec_setCurrent_write (d : Word32) (s : State) (h : s.ready) (hd : ampValid d = true) :
    exec (.setCurrent d) s =
      outcomeOf (updateFrames (.setCurrent d) 0 1 .torqueIns (accepted (.setCurrent d) s) >>= fun s' =>
        readExchange 1 s' >>= fun r =>
          .ok (afterResponse 2 .amperes (afterRead 1 .low (.running (.setCurrent d) 28) s' r))) := by
  rw [exec, execSetCurrent, runInstr, accept_ready _ _ h, except_bind_ok, setCurrentProgram_valid d hd, run_update]
  simp only [run_readFrame, run_respond, seq_after_respond, Nat.reduceAdd]

/-- An out-of-range operand: the confirming read alone (R163). -/
theorem exec_setMicrosteps_skip (d : Reg16) (s : State) (h : s.ready) (hd : ustepValid d = false) :
    exec (.setMicrosteps d) s =
      outcomeOf (readExchange 0 (accepted (.setMicrosteps d) s) >>= fun r =>
        .ok (afterResponse 4 .microsteps
          (afterRead 0 .low (.running (.setMicrosteps d) 9) (accepted (.setMicrosteps d) s) r))) := by
  simp only [exec, execSetMicrosteps, runInstr, accept_ready _ _ h, except_bind_ok, setMicrostepsProgram, Config.ctrlAddr, hd,
    Bool.false_eq_true, if_false, List.nil_append]
  simp only [run_readFrame, run_respond, seq_after_respond, Nat.reduceAdd]

/-- The sequence for a valid operand. -/
theorem setMicrostepsProgram_valid (d : Reg16) (hd : ustepValid d = true) :
    setMicrostepsProgram d =
      readFrame 0 .lowAndT ++ (writeFrame 0 .ctrlIns ++ (readFrame 0 .low ++ [.respond 4 .microsteps])) := by
  rw [setMicrostepsProgram, if_pos hd, ctrlUpdate, List.append_assoc, List.append_assoc]
  rfl

/-- A valid operand: read, write, read (R168). -/
theorem exec_setMicrosteps_write (d : Reg16) (s : State) (h : s.ready) (hd : ustepValid d = true) :
    exec (.setMicrosteps d) s =
      outcomeOf (updateFrames (.setMicrosteps d) 0 0 .ctrlIns (accepted (.setMicrosteps d) s) >>= fun s' =>
        readExchange 0 s' >>= fun r =>
          .ok (afterResponse 4 .microsteps (afterRead 0 .low (.running (.setMicrosteps d) 28) s' r))) := by
  rw [exec, execSetMicrosteps, runInstr, accept_ready _ _ h, except_bind_ok, setMicrostepsProgram_valid d hd, run_update]
  simp only [run_readFrame, run_respond, seq_after_respond, Nat.reduceAdd]

end Sys2Proof.Machine
end

