-- ==== Sys2Proof/Laws/PerInstr.lean ====
section
/-! SUPPORT. Statements made instruction by instruction. The family `RowMatch`: every encoding of an instruction is one
of its row of spec/opcode_table.json, in width and under the row's mask. -/

namespace Sys2Proof.Laws.RowMatch

/-- The encoding of `i` belongs to the table row of `i`. -/
def Statement (i : Instr) : Prop := i.row.holds (encode i) = true

/-- Masking the operation code out of a command word, on numbers. -/
theorem command_masked (op : BitVec 4) (a : Byte) (arg : Word32) :
    (commandWord op a arg).toNat &&& 0xF0000000000 = op.toNat * 2 ^ 40 := by
  have hm : (0xF0000000000 : Nat) = (0xF0000000000#44).toNat := rfl
  have hr : op.toNat * 2 ^ 40 = (commandWord op 0 0).toNat := by
    simp only [commandWord, BitVec.toNat_append]
    simp [Nat.shiftLeft_eq]
    omega
  rw [hm, hr, ← BitVec.toNat_and]
  congr 1
  apply BitVec.eq_of_getLsbD_eq
  intro i hi
  have hmask : ∀ j < 44, (0xF0000000000#44).getLsbD j = decide (40 ≤ j) := by decide
  simp only [BitVec.getLsbD_and, hmask i hi, commandWord, BitVec.getLsbD_append]
  by_cases h1 : i < 32
  · simp [h1]; omega
  · by_cases h2 : i - 32 < 8
    · simp [h1, h2]; omega
    · simp [h1, h2]; omega

theorem command_holds (op : BitVec 4) (a : Byte) (arg : Word32) (value : Nat) (h : op.toNat * 2 ^ 40 = value) :
    TableRow.holds ⟨44, value, 0xF0000000000⟩ (.command (commandWord op a arg)) = true := by
  simp only [TableRow.holds, Encoded.width, Encoded.toNat, command_masked, h, beq_self_eq_true, Bool.and_self]

theorem enableCurrent (b : Level) : Statement (.enableCurrent b) := command_holds 0 _ _ _ rfl
theorem getCurrent : Statement .getCurrent := command_holds 1 _ _ _ rfl
theorem setCurrent (d : Word32) : Statement (.setCurrent d) := command_holds 2 _ _ _ rfl
theorem getMicrosteps : Statement .getMicrosteps := command_holds 3 _ _ _ rfl
theorem setMicrosteps (d : Reg16) : Statement (.setMicrosteps d) := command_holds 4 _ _ _ rfl
theorem getRegister (a : Byte) : Statement (.getRegister a) := command_holds 5 _ _ _ rfl
theorem setRegister (a : Byte) (v : Reg16) : Statement (.setRegister a v) := command_holds 6 _ _ _ rfl

theorem tRead (a : Byte) : Statement (.tRead a) := by
  have h : ∀ a : Byte, Instr.row (.tRead a) |>.holds (encode (.tRead a)) := by decide
  exact h a

theorem tWrite (a : Byte) (v : Reg16) : Statement (.tWrite a v) := by
  have h : (commandByte false a ++ v : FrameWord) &&& 0xF00000#24 = 0#24 := by
    have hc : ∀ (a : Byte) (j : Fin 8), 4 ≤ j.val → (commandByte false a).getLsbD j = false := by decide
    have hmask : ∀ j < 24, (0xF00000#24).getLsbD j = decide (20 ≤ j) := by decide
    apply BitVec.eq_of_getLsbD_eq
    intro i hi
    simp only [BitVec.getLsbD_and, hmask i hi, getLsbD_frame, BitVec.getLsbD_zero]
    by_cases h1 : i < 16
    · simp [h1]; omega
    · by_cases h2 : 20 ≤ i
      · simp [h1, hc a ⟨i - 16, by omega⟩ (by simp; omega)]
      · simp [h2]
  have h' := congrArg BitVec.toNat h
  simp only [BitVec.toNat_and] at h'
  simp only [Statement, Instr.row, TableRow.holds, encode, Encoded.width, Encoded.toNat]
  simpa using h'

end Sys2Proof.Laws.RowMatch
end

