-- ==== Sys2Proof/Laws/Sequencer.lean ====
section
/-! SUPPORT. What one event of a micro-sequence can do, whatever the event, and how the fetch and `exec` meet the
sequencer: the lemmas that a claim about `step`, `tick` or every instruction starts from. -/

namespace Sys2Proof.Machine

/-- An event keeps the parameters, the inputs and the sequencer's position, and adds exactly one event to the trace. -/
theorem micro_run_keeps (m : Micro) (s t : State) (h : m.run s = .ok t) :
    t.params = s.params ∧ t.resetLine = s.resetLine ∧ t.host = s.host ∧ t.seq = s.seq ∧
      ∃ e, t.trace = s.trace ++ [e] := by
  cases m with
  | busBegin => cases h; exact ⟨rfl, rfl, rfl, rfl, _, rfl⟩
  | busEnd => cases h; exact ⟨rfl, rfl, rfl, rfl, _, rfl⟩
  | pinWrite p l => cases h; exact ⟨rfl, rfl, rfl, rfl, _, rfl⟩
  | delayUs n => cases h; exact ⟨rfl, rfl, rfl, rfl, _, rfl⟩
  | respond o k => cases h; exact ⟨rfl, rfl, rfl, rfl, _, rfl⟩
  | xfer tx d =>
    simp only [Micro.run, xfer] at h
    cases hh : s.chip.answer s.draws (tx.value s.lat) with
    | error e => rw [hh] at h; cases h
    | ok r => rw [hh] at h; cases h; exact ⟨rfl, rfl, rfl, rfl, _, rfl⟩

/-- Every meaning runs the instruction's micro-sequence. -/
theorem exec_program (i : Instr) (s : State) : exec i s = runInstr i (program i) s := by cases i <;> rfl

/-- No micro-sequence is empty. -/
theorem program_length_pos (i : Instr) : 0 < (program i).length := by
  cases i <;>
    simp [program, enableCurrentProgram, getCurrentProgram, setCurrentProgram, getMicrostepsProgram,
      setMicrostepsProgram, getRegisterProgram, setRegisterProgram, tReadProgram, tWriteProgram, readFrame, writeFrame]

/-- An instruction that completed was accepted. -/
theorem ready_of_exec (i : Instr) (s t : State) (h : exec i s = .next t) : s.ready := by
  rw [exec_program] at h
  simp only [runInstr, accept] at h
  cases hw : s.params.wf with
  | false => simp [hw, outcomeOf] at h
  | true =>
    cases hs : s.seq with
    | idle => exact ⟨hw, hs⟩
    | running j p => simp [hw, hs, State.busy, outcomeOf] at h

/-- The fetch of a busy block with reset low goes on with the operation (R160). -/
theorem fetch_running (s : State) (i : Instr) (pos : Nat) (hw : s.params.wf = true) (hr : s.resetLine = false)
    (hs : s.seq = .running i pos) : fetch s = .resume i pos := by
  simp [fetch, hw, hr, hs]

/-! ### The frame discipline, one event at a time -/

theorem next_selected (tx rx : Byte) :
    WirePhase.next .selected (.xfer tx rx) =
      if tx.extractLsb' 4 3 = 0#3 then some (.sent 1 (tx.getLsbD 7)) else none := (rfl)

theorem next_settled (n : Nat) (read : Bool) (tx rx : Byte) :
    WirePhase.next (.settled n read) (.xfer tx rx) =
      if read = true ∧ tx ≠ 0#8 then none else some (.sent (n + 1) read) := (rfl)

/-- The phase after two stretches of a trace. -/
theorem wirePhase_append (es fs : List Event) (ph : WirePhase) :
    wirePhase ph (es ++ fs) = (wirePhase ph es).bind fun p => wirePhase p fs := by
  induction es generalizing ph with
  | nil => rfl
  | cons e es ih =>
    simp only [List.cons_append, wirePhase]
    cases ph.next e <;> simp [ih]

end Sys2Proof.Machine
end

