-- ==== Sys2Proof/Tests/Slice0.lean ====
section
/-! SUPPORT. Tests and witnesses. Expected results are from spec/95_test_vectors.md (the vector is named in each
comment) or from the rule named; none is the model's own answer. A witness theorem shows a concrete state and operands
that meet the hypotheses of the obligation it names, at boundary values. -/

namespace Sys2Proof.Tests

open Sys2Proof Sys2Proof.Machine

/-! ### Small states -/

/-- `DEV0` of spec/95_test_vectors.md. -/
def dev0 : DevRegs :=
  { ctrl := 0x0C11, torque := 0x01FF, off := 0x0030, blank := 0x0080, decay := 0x0110, stall := 0x0040,
    drive := 0x0A59, status := 0x0000 }

/-- The block after reset with a given kind of chip. -/
def withChip (answers : Answers) (r : DevRegs) : State :=
  { State.reset with chip := { regs := r, answers := answers, frame := [] } }

/-- The reference device at `DEV0`. -/
def rd : State := withChip .reference dev0

/-- The general model with the next replies given. -/
def bus (replies : List Byte) : State := withChip (.oracle replies) dev0

/-- No device. -/
def noDevice (b : Byte) : State := withChip (.floating b) dev0

/-- Inside `get_current`: the command byte has been sent, its delay is next. -/
def inFrame : State :=
  { rd with
    seq := .running .getCurrent 3
    pins := { Pins.startup with cs := false }
    busHeld := true
    rspValid := false
    trace := startupTrace ++ [.busBegin, .pin .cs false, .xfer 0x81 0x00] }

/-- The next state of an outcome. -/
def nextOf (o : Host.Outcome State Fault Refusal) : Option State :=
  match o with
  | .next t => some t
  | .fault _ => none
  | .refused _ => none

/-- Why an outcome was refused. -/
def refusalIn (o : Host.Outcome State Fault Refusal) : Option Refusal :=
  match o with
  | .next _ => none
  | .fault _ => none
  | .refused r => some r

/-- The response of an outcome. -/
def responseOf (o : Host.Outcome State Fault Refusal) : Option Word32 := (nextOf o).map (·.rspData)

/-- The bytes put on the wire in an outcome. -/
def sentIn (o : Host.Outcome State Fault Refusal) : Option (List Byte) :=
  (nextOf o).map fun t => t.trace.filterMap Event.sent

/-- The 16-bit result of a frame in an outcome. -/
def resultOf (o : Host.Outcome State Fault Refusal) : Option Reg16 := (nextOf o).map (·.lat.result)

/-! ### WellFormed: each check refuses an ill-formed term -/

theorem test_wf_refuses_high_read_address : Instr.wf (.tRead 0x21) = false := by decide
theorem test_wf_refuses_high_write_address : Instr.wf (.tWrite 0xFF 1) = false := by decide
theorem test_kqOk_refuses_zero : kqOk 0 = false := by decide
/-- X5: the `KQ` of the source's example is refused, 4186111 is the largest accepted. -/
theorem test_kqOk_refuses_X5 : kqOk 4316856 = false ∧ kqOk 4186112 = false ∧ kqOk 4186111 = true := by decide
theorem test_handle_refuses_equal_pins :
    Handle.wf { Config.handle with mode2 := .pinMode1 } = false ∧
      Handle.wf { Config.handle with enable := .pinMode1 } = false ∧
      Handle.wf { Config.handle with cs := .pinMode1 } = false ∧
      Handle.wf { Config.handle with enable := .pinMode2 } = false ∧
      Handle.wf { Config.handle with cs := .pinMode2 } = false ∧
      Handle.wf { Config.handle with cs := .pinEnable } = false := by decide
theorem test_handle_refuses_other_clock :
    Handle.wf { Config.handle with bus := { Config.buscfg with clockHz := 500000 } } = false := by decide
theorem test_params_refuse_each_part :
    Params.wf { Config.params with kq := 0 } = false ∧
      Params.wf { Config.params with handle := { Config.handle with cs := .pinMode1 } } = false ∧
      Params.wf Config.params = true := by decide

/-! ### Decode: words written out from Tables E1 and E2 and from the vectors -/

/-- `op = 0`, `arg[0] = 1` (H23); `arg = 0xFFFFFFFE` (H25). -/
theorem test_decode_enable_current :
    decode (.command 0x00000000001) = .ok (.enableCurrent true) ∧
      decode (.command 0x000FFFFFFFE) = .ok (.enableCurrent false) := by decide
/-- H1, and H26 with every ignored bit in use. -/
theorem test_decode_get_current :
    decode (.command 0x10000000000) = .ok .getCurrent ∧ decode (.command 0x1FFDEADBEEF) = .ok .getCurrent := by decide
/-- H2 (2.0 A) and H6 (-1.0 A). -/
theorem test_decode_set_current :
    decode (.command 0x20000020000) = .ok (.setCurrent 0x00020000) ∧
      decode (.command 0x200FFFF0000) = .ok (.setCurrent 0xFFFF0000) := by decide
/-- H10. -/
theorem test_decode_get_microsteps : decode (.command 0x30000000000) = .ok .getMicrosteps := by decide
/-- H11 and H16. -/
theorem test_decode_set_microsteps :
    decode (.command 0x40000000005) = .ok (.setMicrosteps 5) ∧
      decode (.command 0x4000000FFFF) = .ok (.setMicrosteps 0xFFFF) := by decide
/-- H19 and H20: the address operand is kept whole; the transport masks it. -/
theorem test_decode_get_register :
    decode (.command 0x50700000000) = .ok (.getRegister 7) ∧
      decode (.command 0x51700000000) = .ok (.getRegister 0x17) := by decide
/-- H21 and H22. -/
theorem test_decode_set_register :
    decode (.command 0x60000000C49) = .ok (.setRegister 0 0x0C49) ∧
      decode (.command 0x601000012FF) = .ok (.setRegister 1 0x12FF) := by decide
/-- R83: 1 000 AAAA then sixteen zeros, at A = 1 and A = 15. -/
theorem test_decode_read_frame :
    decode (.frame 0b100000010000000000000000) = .ok (.tRead 1) ∧
      decode (.frame 0b100011110000000000000000) = .ok (.tRead 15) := by decide
/-- R84 and T5: 0 000 0110 then `0xA55A`. -/
theorem test_decode_write_frame :
    decode (.frame 0b000001101010010101011010) = .ok (.tWrite 6 0xA55A) ∧
      decode (.frame 0x0F0001) = .ok (.tWrite 15 1) := by decide
/-- X1 and X2. -/
theorem test_decode_refuses_reserved_op :
    decode (.command 0x70000000000) = .error (.reservedOp 7) ∧
      decode (.command 0xF0000000000) = .error (.reservedOp 15) := by decide
/-- R83, R93: a read frame with a data bit, and command-byte bits 6 to 4. -/
theorem test_decode_refuses_other_frames :
    decode (.frame 0x810001) = .error (.notAFrame 0x810001) ∧
      decode (.frame 0x900000) = .error (.notAFrame 0x900000) ∧
      decode (.frame 0x400000) = .error (.notAFrame 0x400000) := by decide
/-- The byte layouts: a frame in wire order (T5), H2 in six bytes, and strings that are neither. -/
theorem test_decodeBytes :
    decodeBytes [0x06, 0xA5, 0x5A] = .ok (.tWrite 6 0xA55A) ∧
      decodeBytes [0x02, 0x00, 0x00, 0x02, 0x00, 0x00] = .ok (.setCurrent 0x00020000) ∧
      decodeBytes [0x12, 0, 0, 0, 0, 0] = .error (.notAnEncoding 6) ∧
      decodeBytes [0x81] = .error (.notAnEncoding 1) := by decide
theorem test_decodeTableWord :
    decodeTableWord 48 0x20000020000 = some (.setCurrent 0x00020000) ∧
      decodeTableWord 24 0x810000 = some (.tRead 1) ∧ decodeTableWord 48 0x70000000000 = none := by decide

/-! ### The codec -/

/-- K1 to K9. -/
theorem test_amp_valid :
    ampValid 0 = false ∧ ampValid 1 = true ∧ ampValid 0x40000 = true ∧ ampValid 0x40001 = false ∧
      ampValid 0x7FFFFFFF = false ∧ ampValid 0x80000000 = false ∧ ampValid 0xFFFFFFFF = false := by decide
/-- K3 to K8. -/
theorem test_amp_enc :
    ampEnc 1725568 0x4DC = 0 ∧ ampEnc 1725568 0x4DD = 1 ∧ ampEnc 1725568 0xE95 = 1 ∧ ampEnc 1725568 0xE96 = 2 ∧
      ampEnc 1725568 0x8000 = 13 ∧ ampEnc 1725568 0x20000 = 53 ∧ ampEnc 1725568 0x38000 = 92 ∧
      ampEnc 1725568 0x3F806 = 104 ∧ ampEnc 1725568 0x3F807 = 105 ∧ ampEnc 1725568 0x40000 = 105 := by decide
/-- Table V3. -/
theorem test_amp_dec :
    ampDec 1725568 31 = 0x12D68 ∧ ampDec 1725568 53 = 0x2034E ∧ ampDec 1725568 91 = 0x374C5 ∧
      ampDec 1725568 152 = 0x5C5DB ∧ ampDec 1725568 212 = 0x80D38 := by decide
/-- K12 to K14. -/
theorem test_ustep_valid_enc :
    ustepValid 0x8000 = false ∧ ustepValid 0xFFFF = false ∧ ustepValid 0 = false ∧ ustepValid 256 = true ∧
      ustepValid 257 = false ∧ ustepEnc 1 = 0 ∧ ustepEnc 3 = 1 ∧ ustepEnc 5 = 2 ∧ ustepEnc 127 = 6 ∧ ustepEnc 255 = 7 ∧
      ustepEnc 256 = 8 := by decide
/-- K15 and K16. -/
theorem test_ustep_dec : ustepDec 0 = 1 ∧ ustepDec 8 = 256 ∧ ustepDec 9 = 0xFFFF ∧ ustepDec 15 = 0xFFFF := by decide
/-- K17. -/
theorem test_fields :
    torqueGet 0x01FF = 0xFF ∧ torqueIns 0x01FF 0x35 = 0x0135 ∧ torqueIns 0xFFFF 0 = 0xFF00 ∧ ctrlGet 0x0C49 = 9 ∧
      ctrlIns 0xFFFF 4 = 0xFFA7 ∧ ctrlIns 0x0C79 3 = 0x0C19 := by decide
/-- T6: the levels of `MOSI` at the eight sampling edges, and the byte received. -/
theorem test_bit_order :
    (shiftByte Config.buscfg 0x81 0x35).rx = 0x35 ∧
      (((shiftByte Config.buscfg 0x81 0x35).wave.filter (·.1)).map (·.2)) =
        [true, false, false, false, false, false, false, true] := by decide

/-! ### The instructions -/

/-- H23, H24: the pin follows `arg[0]`. -/
theorem test_enable_current :
    (nextOf (exec (.enableCurrent true) rd)).map (·.pins.enable) = some true ∧
      (nextOf (exec (.enableCurrent false) { rd with pins := { rd.pins with enable := true } })).map (·.pins.enable) =
        some false := by decide +kernel
/-- H1 and F7. -/
theorem test_get_current :
    responseOf (exec .getCurrent rd) = some 0x0009AF4B ∧
      responseOf (exec .getCurrent (noDevice 0x00)) = some 0 := by decide +kernel
/-- H2: frames, register and response. -/
theorem test_set_current :
    sentIn (exec (.setCurrent 0x20000) rd) = some [0x81, 0, 0, 0x01, 0x01, 0x35, 0x81, 0, 0] ∧
      responseOf (exec (.setCurrent 0x20000) rd) = some 0x0002034E ∧
      (nextOf (exec (.setCurrent 0x20000) rd)).map (·.chip.regs) = some { dev0 with torque := 0x0135 } := by
  decide +kernel
/-- P2 (5.0 A is skipped) and F2 (no device: the write is built on what was read). -/
theorem test_set_current_skip_and_floating :
    sentIn (exec (.setCurrent 0x50000) rd) = some [0x81, 0, 0] ∧
      responseOf (exec (.setCurrent 0x50000) rd) = some 0x0009AF4B ∧
      sentIn (exec (.setCurrent 0x20000) (noDevice 0xFF)) = some [0x81, 0, 0, 0x01, 0xFF, 0x35, 0x81, 0, 0] := by
  decide +kernel
/-- H10 and F3 (the sentinel, sign-extended). -/
theorem test_get_microsteps :
    responseOf (exec .getMicrosteps rd) = some 4 ∧
      responseOf (exec .getMicrosteps (noDevice 0xFF)) = some 0xFFFFFFFF := by decide +kernel
/-- H12's operand on `DEV0`, and H11 (5 programs 4). -/
theorem test_set_microsteps :
    sentIn (exec (.setMicrosteps 16) rd) = some [0x80, 0, 0, 0x00, 0x0C, 0x21, 0x80, 0, 0] ∧
      responseOf (exec (.setMicrosteps 5) rd) = some 4 := by decide +kernel
/-- P2 (300 is skipped) and F4. -/
theorem test_set_microsteps_skip_and_floating :
    sentIn (exec (.setMicrosteps 300) rd) = some [0x80, 0, 0] ∧
      sentIn (exec (.setMicrosteps 16) (noDevice 0xFF)) = some [0x80, 0, 0, 0x00, 0xFF, 0xA7, 0x80, 0, 0] := by
  decide +kernel
/-- H20 (masking) and X3 (the reference device refuses address 8). -/
theorem test_get_register :
    sentIn (exec (.getRegister 0x17) rd) = some [0x87, 0, 0] ∧
      refusalIn (exec (.getRegister 8) rd) = some (.unnamedAddress 8) := by decide +kernel
/-- H22: frame and register; F6: the echo. -/
theorem test_set_register :
    (nextOf (exec (.setRegister 1 0x12FF) rd)).map (·.chip.regs) = some { dev0 with torque := 0x12FF } ∧
      sentIn (exec (.setRegister 6 0x1234) (noDevice 0xFF)) = some [0x06, 0x12, 0x34] ∧
      responseOf (exec (.setRegister 6 0x1234) (noDevice 0xFF)) = some 0xFFFF := by decide +kernel
/-- The events of T3, written out. -/
def eventsT3 : List Event :=
  [.busBegin, .pin .cs false, .xfer 0x81 0x77, .delay 200, .xfer 0x00 0x01, .delay 200, .xfer 0x00 0x35,
    .pin .cs true, .busEnd]
/-- The events of T4, written out. -/
def eventsT4 : List Event :=
  [.busBegin, .pin .cs false, .xfer 0x01 0x77, .delay 200, .xfer 0x01 0x12, .delay 200, .xfer 0x35 0x34,
    .pin .cs true, .delay 200, .busEnd]
/-- T3. -/
theorem test_tRead :
    resultOf (exec (.tRead 1) (bus [0x77, 0x01, 0x35])) = some 0x0135 ∧
      (nextOf (exec (.tRead 1) (bus [0x77, 0x01, 0x35]))).map (·.trace) =
        some (startupTrace ++ eventsT3) := by decide +kernel
/-- T4. -/
theorem test_tWrite :
    resultOf (exec (.tWrite 1 0x0135) (bus [0x77, 0x12, 0x34])) = some 0x1234 ∧
      (nextOf (exec (.tWrite 1 0x0135) (bus [0x77, 0x12, 0x34]))).map (·.trace) =
        some (startupTrace ++ eventsT4) := by decide +kernel
/-- The step of the machine from reset with H2's word placed on the port, whatever the replies. -/
theorem test_step_runs_placed_word :
    sentIn (step ((bus [0, 0x01, 0xFF, 0, 0, 0, 0, 0x01, 0x35]).withFetchWord 48 0x20000020000)) =
      some [0x81, 0, 0, 0x01, 0x01, 0x35, 0x81, 0, 0] := by decide +kernel
/-- X1: the reserved operation code is refused by the step. -/
theorem test_step_refuses_reserved :
    refusalIn (step (State.reset.withFetchWord 48 0x70000000000)) = some (.reservedOp 7) := by decide +kernel

/-- R222: a second reset leaves the registers of a chip of which nothing is known as they were. -/
theorem test_reset_keeps_device :
    (nextOf (step { noDevice 0xFF with resetLine := true })).map (·.chip.regs) = some dev0 ∧
      (nextOf (step { bus [1] with host := [.reset] })).map (·.chip.regs) = some dev0 := by decide +kernel

/-! ### Witnesses: the hypotheses of each obligation are met -/

theorem params_wf : Config.params.wf = true := by decide
theorem reset_ready : State.reset.ready := ⟨params_wf, rfl⟩
theorem rd_ready : rd.ready := ⟨params_wf, rfl⟩
theorem bus_ready (replies : List Byte) : (bus replies).ready := ⟨params_wf, rfl⟩
theorem noDevice_ready (b : Byte) : (noDevice b).ready := ⟨params_wf, rfl⟩

/-- An outcome whose next state can be read is a next state. -/
theorem completes (o : Host.Outcome State Fault Refusal) (h : (nextOf o).isSome = true) : ∃ t, o = .next t := by
  cases o with
  | next t => exact ⟨t, rfl⟩
  | fault f => cases f
  | refused r => cases h

theorem witness_DecodeOfEncodeIsTheInstruction :
    Instr.wf (.tRead 0x0F) = true ∧ Instr.wf (.tWrite 0x0F 0xFFFF) = true ∧ Instr.wf (.tRead 0) = true ∧
      Instr.wf (.setRegister 0xFF 0xFFFF) = true ∧ Instr.wf (.setCurrent 0x80000000) = true := by decide
theorem witness_EncodeOfDecodedFrameIsTheFrame :
    decode (.frame 0x8F0000) = .ok (.tRead 0x0F) ∧ decode (.frame 0x0FFFFF) = .ok (.tWrite 0x0F 0xFFFF) := by decide
theorem witness_IgnoredFieldsAreIgnored :
    decode (.command 0x1FFDEADBEEF) = .ok .getCurrent ∧
      (0x10000000000#44) &&& Instr.usedBits .getCurrent = 0x1FFDEADBEEF#44 &&& Instr.usedBits .getCurrent := by decide
theorem witness_ReservedOperationCodesAreRefused :
    ∀ w : CmdWord, w = 0x70000000000 ∨ w = 0xF0000000000 →
      ({ rd with host := [.command w] } : State).ready ∧ ({ rd with host := [.command w] } : State).resetLine = false ∧
        7 ≤ (w.extractLsb' 40 4).toNat := by
  rintro w (rfl | rfl)
  · exact ⟨⟨by decide, rfl⟩, rfl, by decide⟩
  · exact ⟨⟨by decide, rfl⟩, rfl, by decide⟩
theorem witness_StepRunsTheDecodedInstruction :
    ({ rd with host := [.command 0x51700000000, .wait] } : State).ready ∧
      decode (.command 0x51700000000) = .ok (.getRegister 0x17) ∧
      ({ rd with host := [.call 0x00BEEF] } : State).ready ∧ decode (.frame 0x00BEEF) = .ok (.tWrite 0 0xBEEF) ∧
      rd.resetLine = false ∧ decodeTableWord 24 0x00BEEF = some (.tWrite 0 0xBEEF) ∧
      decodeTableWord 44 0x000FFFFFFFE = some (.enableCurrent false) := by
  exact ⟨⟨by decide, rfl⟩, by decide, ⟨by decide, rfl⟩, by decide, rfl, by decide, by decide⟩
theorem witness_BadConfigurationIsRefused :
    ({ rd with params := { Config.params with kq := 4186112 } } : State).params.wf = false ∧ kqOk 1 = true := by decide
/-- Nothing presented, and time asked to pass. -/
theorem witness_IdleStepDropsTheResponse :
    (({ rd with rspValid := true } : State).ready ∧ rd.resetLine = false ∧ rd.host = []) ∧
      (({ rd with host := [.wait, .reset] } : State).ready ∧
        ({ rd with host := [.wait, .reset] } : State).resetLine = false ∧
        ({ rd with host := [.wait, .reset] } : State).host = .wait :: [.reset]) :=
  ⟨⟨⟨params_wf, rfl⟩, rfl, rfl⟩, ⟨params_wf, rfl⟩, rfl, rfl⟩
theorem witness_AmpEncRoundsTheProduct :
    kqOk 4186111 = true ∧ ampValid 1 = true ∧ ampValid 262144 = true ∧ (1 : Word32).toInt ≤ (262144 : Word32).toInt ∧
      ampValid 1244 = true ∧ (1244 : Word32).toNat ≤ 1244 := by decide
theorem witness_AmpDecRoundsTheQuotient : 256 ≤ 1725568 ∧ (0 : Byte).toNat < (255 : Byte).toNat := by decide
theorem witness_CurrentRoundTripIsWithinOneStep : ampValid 1 = true ∧ ampValid 75915 = true := by decide
theorem witness_UstepEncIsFloorLog2 : ustepValid 1 = true ∧ ustepValid 255 = true ∧ ustepValid 256 = true := by decide
theorem witness_UstepDecSentinel :
    (8 : BitVec 4).toNat ≤ 8 ∧ 9 ≤ (9 : BitVec 4).toNat ∧ ustepValid 256 = true ∧ 2 ^ 8 ≤ (256 : Reg16).toNat := by decide
theorem witness_TransportReadRunsItsFrame :
    State.reset.ready ∧ State.reset.chip.takes 0xFF = true ∧ rd.ready ∧ rd.chip.takes 0xF7 = true :=
  ⟨reset_ready, rfl, rd_ready, by decide⟩
theorem witness_TransportWriteRunsItsFrame :
    State.reset.ready ∧ State.reset.chip.takes 0x08 = true ∧ rd.ready ∧ rd.chip.takes 0x07 = true :=
  ⟨reset_ready, rfl, rd_ready, by decide⟩
theorem witness_CommandByteCarriesAddressAndReadFlag :
    (∃ t, exec (.tRead 0xF1) (bus [1, 2, 3]) = .next t) ∧ (∃ t, exec (.tWrite 0x0F 0xBEEF) (bus [1, 2, 3]) = .next t) :=
  ⟨completes _ (by decide +kernel), completes _ (by decide +kernel)⟩
theorem witness_FramesSentAreTheEncodings :
    State.reset.ready ∧ State.reset.chip.takes 0xFF = true ∧ rd.ready ∧ rd.chip.takes 0x17 = true :=
  ⟨reset_ready, rfl, rd_ready, by decide⟩
theorem witness_DelaysAreTwoHundredMicroseconds :
    Micro.delayUs 200 ∈ program (.tWrite 1 1) ∧ inFrame.params.wf = true ∧ inFrame.resetLine = false ∧
      inFrame.seq = .running .getCurrent 3 ∧ (program .getCurrent)[3]? = some (.delayUs 200) :=
  ⟨by decide, by decide, rfl, rfl, rfl⟩
theorem witness_OracleRepliesFormTheResult :
    (bus [0x77, 0xA5, 0x5A]).ready ∧ (bus [0x77, 0xA5, 0x5A]).chip.answers = .oracle (0x77 :: 0xA5 :: 0x5A :: []) :=
  ⟨bus_ready _, rfl⟩
theorem witness_FloatingBusReadsOneConstant :
    (noDevice 0xFF).ready ∧ (noDevice 0xFF).chip.answers = .floating 0xFF := ⟨noDevice_ready _, rfl⟩
theorem witness_ReferenceDeviceReadsItsRegister :
    rd.ready ∧ rd.chip.answers = .reference ∧ ((0xF7 : Byte).extractLsb' 0 4).toNat < 8 := ⟨rd_ready, rfl, by decide⟩
theorem witness_ReferenceDeviceTakesAWrite :
    rd.ready ∧ rd.chip.answers = .reference ∧ ((0x00 : Byte).extractLsb' 0 4).toNat < 8 ∧ (7 : BitVec 4).toNat < 8 :=
  ⟨rd_ready, rfl, by decide, by decide⟩
theorem witness_ReferenceDeviceRefusesUnnamedAddresses :
    rd.ready ∧ rd.chip.answers = .reference ∧ 8 ≤ ((0x08 : Byte).extractLsb' 0 4).toNat ∧
      8 ≤ ((0xFF : Byte).extractLsb' 0 4).toNat := ⟨rd_ready, rfl, by decide, by decide⟩
/-- `State.ready` is the one hypothesis of `EnableCurrentDrivesThePowerPin`, `GetCurrentDecodesTorque`,
`SetCurrentReadsWritesAndRereads`, `GetMicrostepsDecodesCtrl` and `SetMicrostepsReadsWritesAndRereads`. -/
theorem witness_ready : State.reset.ready ∧ rd.ready ∧ (noDevice 0).ready := ⟨reset_ready, rd_ready, noDevice_ready _⟩
theorem witness_GetRegisterPassesTheReadThrough :
    State.reset.ready ∧ State.reset.chip.takes 0x0F = true ∧ rd.ready ∧ rd.chip.takes 0x17 = true :=
  ⟨reset_ready, rfl, rd_ready, by decide⟩
theorem witness_SetRegisterPassesTheWriteThrough :
    State.reset.ready ∧ State.reset.chip.takes 0x0F = true ∧ rd.ready ∧ rd.chip.takes 0x00 = true :=
  ⟨reset_ready, rfl, rd_ready, by decide⟩
theorem witness_SetCurrentOnTheReferenceDevice :
    rd.ready ∧ rd.chip.answers = .reference ∧ ampValid 1 = true ∧ ampValid 0x40000 = true ∧ ampValid 0 = false ∧
      ampValid 0x40001 = false := ⟨rd_ready, rfl, by decide, by decide, by decide, by decide⟩
theorem witness_SetMicrostepsOnTheReferenceDevice :
    rd.ready ∧ rd.chip.answers = .reference ∧ ustepValid 1 = true ∧ ustepValid 256 = true ∧ ustepValid 0 = false ∧
      ustepValid 257 = false := ⟨rd_ready, rfl, by decide, by decide, by decide, by decide⟩
theorem witness_ConfirmingRereadDecidesTheResponse :
    (bus [1, 2, 3, 4, 5, 6, 7, 8, 9]).ready ∧
      (bus [1, 2, 3, 4, 5, 6, 7, 8, 9]).chip.answers = .oracle (1 :: 2 :: 3 :: 4 :: 5 :: 6 :: 7 :: 8 :: 9 :: []) ∧
      (bus [7, 8, 9]).ready ∧ (bus [7, 8, 9]).chip.answers = .oracle (7 :: 8 :: 9 :: []) ∧
      ampValid 0x40000 = true ∧ ustepValid 256 = true ∧ ampValid 0x40001 = false ∧ ustepValid 257 = false :=
  ⟨bus_ready _, rfl, bus_ready _, rfl, by decide, by decide, by decide, by decide⟩
/-- Both ways the premise of `NoOperandStopsTheBlock` can hold. -/
theorem witness_NoOperandStopsTheBlock :
    (State.reset.ready ∧ State.reset.chip.answers ≠ .reference) ∧ rd.ready ∧
      (∀ a : Byte, (Instr.getRegister 0xF7 = .getRegister a ∨ Instr.getRegister 0xF7 = .tRead a) →
        (a.extractLsb' 0 4).toNat < 8) ∧
      (∀ (a : Byte) (v : Reg16), (Instr.getRegister 0xF7 = .setRegister a v ∨ Instr.getRegister 0xF7 = .tWrite a v) →
        (a.extractLsb' 0 4).toNat < 8) := by
  refine ⟨⟨reset_ready, by decide⟩, rd_ready, ?_, ?_⟩
  · rintro a (h | h)
    · injection h with h
      subst h
      decide
    · cases h
  · rintro a v (h | h) <;> cases h
theorem witness_HostOperationsKeepNoShadow :
    (∀ a, Instr.setCurrent 0x20000 ≠ .tRead a) ∧ (∀ a v, Instr.setCurrent 0x20000 ≠ .tWrite a v) :=
  ⟨nofun, nofun⟩
theorem witness_MotorPowerChangesNothingElse :
    (∀ e, Instr.getCurrent ≠ .enableCurrent e) ∧ ∃ t, exec .getCurrent (bus [1, 2, 3]) = .next t :=
  ⟨nofun, completes _ (by decide +kernel)⟩
/-- A step, a fine-grained step and an instruction that end in a next state with no reset, and a reset of either kind. -/
theorem witness_HandleAndModePinsNeverChange :
    (∃ t, step (rd.withFetchWord 44 0x00000000001) = .next t) ∧ (∃ t, tick inFrame = .next t) ∧
      (∃ t, exec (.enableCurrent true) rd = .next t) ∧
      ((rd.withFetchWord 44 0x00000000001).resetLine = false ∧
        ∀ later, (rd.withFetchWord 44 0x00000000001).host ≠ .reset :: later) ∧
      (inFrame.resetLine = false ∧ ∀ later, inFrame.host ≠ .reset :: later) ∧
      (∃ t, step { rd with resetLine := true } = .next t) ∧ (∃ t, tick { rd with host := [.reset] } = .next t) :=
  ⟨completes _ (by decide +kernel), completes _ (by decide +kernel), completes _ (by decide +kernel), ⟨rfl, nofun⟩,
    ⟨rfl, nofun⟩, completes _ (by decide +kernel), completes _ (by decide +kernel)⟩
/-- Every instruction ends in a next state from a small state: a valid and an out-of-range operand of each set. -/
theorem witness_DurationsOfTableT1 :
    ∀ i ∈ [Instr.tRead 1, .tWrite 1 1, .getCurrent, .getMicrosteps, .getRegister 7, .setRegister 7 1, .setCurrent 0x40000,
        .setCurrent 0, .setMicrosteps 256, .setMicrosteps 257, .enableCurrent true],
      (nextOf (exec i rd)).isSome = true := by decide +kernel
/-- By the input and by the list. -/
theorem witness_ResetWhileIdleReestablishes :
    ({ rd with resetLine := true, pins := { rd.pins with enable := true } } : State).ready ∧
      ({ rd with host := [.reset, .wait] } : State).ready ∧
      ({ rd with host := [.reset, .wait] } : State).resetLine = false ∧
      ({ rd with host := [.reset, .wait] } : State).host = .reset :: [.wait] :=
  ⟨⟨params_wf, rfl⟩, ⟨params_wf, rfl⟩, rfl, rfl⟩
theorem witness_ResetWhileBusyIsRefused :
    ({ inFrame with resetLine := true } : State).params.wf = true ∧
      ({ inFrame with resetLine := true } : State).seq = .running .getCurrent 3 := ⟨by decide, rfl⟩
/-- In the middle of an operation and at its last event. -/
theorem witness_BusyBlockAcceptsNothing :
    (inFrame.seq = .running .getCurrent 3 ∧ ∃ t, tick inFrame = .next t) ∧
      (({ rd with seq := .running (.enableCurrent true) 1 } : State).seq = .running (.enableCurrent true) 1 ∧
        ∃ t, tick { rd with seq := .running (.enableCurrent true) 1 } = .next t) :=
  ⟨⟨rfl, completes _ (by decide +kernel)⟩, ⟨rfl, completes _ (by decide +kernel)⟩⟩
/-- An idle state with a command presented meets the invariant, and its step ends in a next state. -/
theorem witness_StepKeepsTheInvariant :
    Invariant (rd.withFetchWord 44 0x20000020000) ∧ ∃ t, step (rd.withFetchWord 44 0x20000020000) = .next t :=
  ⟨⟨params_wf, rfl, rfl, rfl, rfl, trivial, ⟨.idle, rfl, rfl, rfl, rfl, rfl⟩, fun h => absurd rfl h⟩,
    completes _ (by decide +kernel)⟩
/-- A state inside a frame meets the invariant, its fine-grained step ends in a next state, and a primitive is next. -/
theorem witness_TickKeepsTheInvariant :
    Invariant inFrame ∧ (∃ t, tick inFrame = .next t) ∧ inFrame.seq = .running .getCurrent 3 ∧
      (program .getCurrent)[3]? = some (.delayUs 200) :=
  ⟨⟨by decide, rfl, rfl, rfl, rfl, (by decide : 3 < (program .getCurrent).length),
    ⟨.sent 1 true, by decide, by decide, rfl, rfl, rfl⟩, fun _ => rfl⟩, completes _ (by decide +kernel), rfl, rfl⟩
/-- At a transfer, whose precondition says something. -/
theorem witness_PreconditionsAreAlwaysMet :
    Invariant { inFrame with seq := .running .getCurrent 4, trace := inFrame.trace ++ [.delay 200], delayTimer := 200 } ∧
      (program .getCurrent)[4]? = some (.xfer (.byte 0) .high) :=
  ⟨⟨by decide, rfl, rfl, rfl, rfl, (by decide : 4 < (program .getCurrent).length),
    ⟨.settled 1 true, by decide, by decide, rfl, rfl, rfl⟩, fun _ => rfl⟩, rfl⟩

end Sys2Proof.Tests
end

/-! ### What the fetch finds, and what a step then does -/

namespace Sys2Proof.Machine

variable {s t : State} {i : Instr} {pos : Nat} {later : List HostReq}

/-- With reset low a ready block looks at its host's next request (R25). -/
theorem fetch_ready (h : s.ready) (hr : s.resetLine = false) : fetch s = fetchIdle s := by
  obtain ⟨hw, hs⟩ := h
  simp [fetch, hw, hs, hr]

theorem fetchIdle_nil (h : s.host = []) : fetchIdle s = .settled (dropResponse s) := by
  simp [fetchIdle, h]

theorem fetchIdle_wait (h : s.host = .wait :: later) :
    fetchIdle s = .settled (dropResponse { s with host := later }) := by
  simp [fetchIdle, h]

theorem fetchIdle_command {w : CmdWord} (h : s.host = .command w :: later) (hd : decode (.command w) = .ok i) :
    fetchIdle s = .instr i { s with host := later } := by
  simp [fetchIdle, h, hd]

theorem fetchIdle_call {f : FrameWord} (h : s.host = .call f :: later) (hd : decode (.frame f) = .ok i) :
    fetchIdle s = .instr i { s with host := later } := by
  simp [fetchIdle, h, hd]

theorem step_of_fetch_settled (h : fetch s = .settled t) : step s = .next t := by rw [step, h]

theorem step_of_fetch_instr (h : fetch s = .instr i t) : step s = exec i t := by rw [step, h]

/-- Reset is asked of the block, by the input or at the head of its host's list (R224). -/
def State.resetAsked (s : State) : Prop := s.resetLine = true ∨ ∃ later, s.host = .reset :: later

/-- All the fetch can find in a state: nothing with a meaning; time passing; a reset that was asked for; an operation under
way; or an instruction, which leaves the host's list. The last two it finds with legal parameters and reset low alone. -/
inductive FetchFinds (s : State) : Fetched → Prop where
  | stop (r : Refusal) : FetchFinds s (.stop r)
  | timePasses (later : List HostReq) : FetchFinds s (.settled (dropResponse { s with host := later }))
  | reset (later : List HostReq) (asked : s.resetAsked) : FetchFinds s (.settled (applyReset { s with host := later }))
  | resume (i : Instr) (pos : Nat) (legal : s.params.wf = true) (low : s.resetLine = false)
      (busy : s.seq = .running i pos) : FetchFinds s (.resume i pos)
  | instr (i : Instr) (later : List HostReq) (legal : s.params.wf = true) (low : s.resetLine = false) :
      FetchFinds s (.instr i { s with host := later })

theorem fetchIdle_finds (hw : s.params.wf = true) (hr : s.resetLine = false) : FetchFinds s (fetchIdle s) := by
  unfold fetchIdle
  split
  next => exact .timePasses s.host
  next later _ => exact .timePasses later
  next later hh => exact .reset later (.inr ⟨later, hh⟩)
  next w later _ =>
    cases decode (.command w) with
    | ok i => exact .instr i later hw hr
    | error e => exact .stop _
  next f later _ =>
    cases decode (.frame f) with
    | ok i => exact .instr i later hw hr
    | error e => exact .stop _

theorem fetch_finds (s : State) : FetchFinds s (fetch s) := by
  unfold fetch
  split
  next => exact .stop _
  next hw =>
    have hw : s.params.wf = true := by simpa using hw
    split
    next i pos hs =>
      split
      next => exact .stop _
      next hr => exact .resume i pos hw (by simpa using hr) hs
    next =>
      split
      next hr => exact .reset s.host (.inl hr)
      next hr => exact fetchIdle_finds hw (by simpa using hr)

/-! ### O6: a step runs the decoded instruction -/

/-- A table row's word is a frame where the width is 24, and a command word under any other width. -/
theorem tableWord_some {nbits w : Nat} {e : Encoded} (h : tableWord nbits w = some e) :
    (nbits = 24 ∧ e = .frame (BitVec.ofNat 24 w)) ∨ (nbits ≠ 24 ∧ e = .command (BitVec.ofNat 44 w)) := by
  unfold tableWord at h
  split at h
  next hn =>
    split at h
    · cases h; exact .inl ⟨hn, rfl⟩
    · cases h
  next hn =>
    split at h
    · split at h
      · cases h; exact .inr ⟨hn, rfl⟩
      · cases h
    · cases h

theorem decodeTableWord_some {nbits w : Nat} (h : decodeTableWord nbits w = some i) :
    ∃ e, tableWord nbits w = some e ∧ decode e = .ok i := by
  unfold decodeTableWord at h
  split at h
  next e he =>
    refine ⟨e, he, ?_⟩
    cases hd : decode e with
    | ok j => rw [hd] at h; cases h; rfl
    | error r => rw [hd] at h; cases h
  next => cases h

/-- The next request of `withFetchWord` is the frame or the command word that the decoder read. -/
theorem fetchIdle_withFetchWord {nbits w : Nat} (h : decodeTableWord nbits w = some i) :
    fetchIdle (s.withFetchWord nbits w) = .instr i { s with resetLine := false } := by
  obtain ⟨e, he, hd⟩ := decodeTableWord_some h
  rcases tableWord_some he with ⟨hn, rfl⟩ | ⟨hn, rfl⟩
  · exact fetchIdle_call (later := s.host) (by simp [State.withFetchWord, hn]) hd
  · exact fetchIdle_command (later := s.host) (by simp [State.withFetchWord, hn]) hd

/-- Settles O6: the ready block's fetch is the host's next request, decoded. -/
theorem stepRunsTheDecodedInstruction : Obligations.StepRunsTheDecodedInstruction := by
  refine ⟨?_, ?_, ?_⟩
  · intro s w later i hs hr hh hd
    exact step_of_fetch_instr ((fetch_ready hs hr).trans (fetchIdle_command hh hd))
  · intro s f later i hs hr hh hd
    exact step_of_fetch_instr ((fetch_ready hs hr).trans (fetchIdle_call hh hd))
  · intro s nbits w i hs hd
    exact step_of_fetch_instr
      ((fetch_ready (s := s.withFetchWord nbits w) hs rfl).trans (fetchIdle_withFetchWord hd))

/-! ### O8: a step that lets time pass -/

/-- A step in which the host presents nothing or asks to wait drops the response. -/
theorem step_idle (hs : s.ready) (hr : s.resetLine = false)
    (hh : (s.host = [] ∧ later = []) ∨ s.host = .wait :: later) :
    step s = .next (dropResponse { s with host := later }) := by
  refine step_of_fetch_settled ((fetch_ready hs hr).trans ?_)
  rcases hh with ⟨hh, rfl⟩ | hh
  · rw [fetchIdle_nil hh, ← hh]
  · exact fetchIdle_wait hh

/-- The registers of the reference device do not change while time passes (R63). -/
theorem dropResponse_regsKept (s : State) (later : List HostReq) :
    RegsKept s (dropResponse { s with host := later }) := by
  intro href
  simp [drift_reference _ _ href, href]

/-- Settles O8: the next state is `dropResponse` of the state with the wait taken off the list. -/
theorem idleStepDropsTheResponse : Obligations.IdleStepDropsTheResponse := by
  intro s later hs hr hh
  have hkept : Kept { s with host := later } (dropResponse { s with host := later }) :=
    ⟨rfl, rfl, rfl, rfl, rfl, rfl, hs.2⟩
  exact ⟨_, step_idle hs hr hh, rfl, hkept, rfl, rfl, rfl, rfl, rfl, rfl, rfl, rfl, dropResponse_regsKept s later⟩

end Sys2Proof.Machine

/-! ### O47: a step is the sequencer run to its end -/

namespace Sys2Proof.Machine

variable {s t : State} {i : Instr} {pos : Nat}

/-- The fine-grained steps that follow one of the given outcome. -/
def ticksAfter (n : Nat) : Host.Outcome State Fault Refusal → Host.Outcome State Fault Refusal
  | .next t => ticks n t
  | .fault r => .fault r
  | .refused r => .refused r

theorem ticks_succ (n : Nat) (s : State) : ticks (n + 1) s = ticksAfter n (tick s) := (rfl)

theorem ticks_one (s : State) : ticks 1 s = tick s := by
  rw [ticks_succ]
  cases tick s <;> rfl

theorem ticks_succ_of_next (n : Nat) (h : tick s = .next t) : ticks (n + 1) s = ticks n t := by
  rw [ticks_succ, h, ticksAfter]

theorem ticks_succ_of_refused (n : Nat) {r : Refusal} (h : tick s = .refused r) : ticks (n + 1) s = .refused r := by
  rw [ticks_succ, h, ticksAfter]

/-- While an operation runs with reset low, the fine-grained step is its next event. -/
theorem tick_running {m : Micro} {rest : List Micro} (hw : s.params.wf = true) (hr : s.resetLine = false)
    (hs : s.seq = .running i pos) (hm : (program i).drop pos = m :: rest) :
    tick s = outcomeOf (m.run s >>= fun u => .ok { u with seq := Seq.after i (pos + 1) rest }) := by
  simp only [tick, fetch_running s i pos hw hr hs, runEvent, hm]

/-- As many fine-grained steps as an operation has events left run it to its end. -/
theorem ticks_running (m : Micro) (rest : List Micro) (hw : s.params.wf = true) (hr : s.resetLine = false)
    (hs : s.seq = .running i pos) (hm : (program i).drop pos = m :: rest) :
    ticks (rest.length + 1) s = outcomeOf (runFrom i pos (m :: rest) s) := by
  induction rest generalizing m pos s with
  | nil => exact (ticks_one s).trans (tick_running hw hr hs hm)
  | cons m' rest ih =>
    have htick := tick_running hw hr hs hm
    rw [runFrom]
    cases hrun : m.run s with
    | error e =>
      rw [hrun] at htick
      exact ticks_succ_of_refused _ htick
    | ok u =>
      rw [hrun] at htick
      obtain ⟨hp, hl, -, -, -⟩ := micro_run_keeps m s u hrun
      have hdrop : (program i).drop (pos + 1) = m' :: rest := by
        rw [← List.tail_drop, hm, List.tail_cons]
      exact (ticks_succ_of_next _ htick).trans (ih m' (hp ▸ hw) (hl.trans hr) rfl hdrop)

/-- An operation under way, at whatever position: the events left of it, or one fine-grained step where none is left. -/
theorem ticks_resume (hw : s.params.wf = true) (hr : s.resetLine = false) (hs : s.seq = .running i pos) :
    ticks (max 1 ((program i).length - pos)) s = runRest i pos s := by
  have hlen : (program i).length - pos = ((program i).drop pos).length := List.length_drop.symm
  rw [hlen, runRest]
  cases hm : (program i).drop pos with
  | nil =>
    rw [List.length_nil, Nat.max_zero, ticks_one, tick, fetch_running s i pos hw hr hs, runFrom]
    simp only [runEvent, hm]
  | cons m rest =>
    rw [List.length_cons, Nat.max_eq_right (Nat.le_add_left 1 _)]
    exact ticks_running m rest hw hr hs hm

/-- What an acceptance leaves of the parameters and the inputs, and where the sequencer then stands (R25, R160). -/
theorem accept_keeps (h : accept i s = .ok t) :
    t.params = s.params ∧ t.pins = s.pins ∧ t.resetLine = s.resetLine ∧ t.seq = .running i 0 := by
  simp only [accept] at h
  split at h
  · cases h
  · split at h
    · cases h
    · cases h
      exact ⟨rfl, rfl, rfl, rfl⟩

/-- A whole instruction: its acceptance, and then its events. -/
theorem ticks_instr (hf : fetch s = .instr i t) (hw : t.params.wf = true) (hr : t.resetLine = false) :
    ticks ((program i).length + 1) s = exec i t := by
  have htick : tick s = outcomeOf (accept i t) := by rw [tick, hf]
  rw [exec_program, runInstr]
  cases ha : accept i t with
  | error e =>
    rw [ha] at htick
    exact ticks_succ_of_refused _ htick
  | ok u =>
    rw [ha] at htick
    obtain ⟨hp, -, hl, hq⟩ := accept_keeps ha
    rw [ticks_succ_of_next _ htick]
    cases hm : program i with
    | nil => exact absurd (program_length_pos i) (by simp [hm])
    | cons m rest => exact ticks_running m rest (hp ▸ hw) (hl.trans hr) hq hm

/-- Settles O47: by what the fetch finds; under an operation, by induction on the events left of it. -/
theorem stepIsTheSequencerRunToItsEnd : Obligations.StepIsTheSequencerRunToItsEnd := by
  intro s
  have hfound := fetch_finds s
  generalize hf : fetch s = found at hfound
  cases hfound with
  | stop r => rw [ticksOf, hf, ticks_one, tick, step, hf]
  | timePasses later => rw [ticksOf, hf, ticks_one, tick, step, hf]
  | reset later _ => rw [ticksOf, hf, ticks_one, tick, step, hf]
  | resume i pos hw hr hs =>
    rw [ticksOf, step, hf]
    exact ticks_resume hw hr hs
  | instr i later hw hr =>
    rw [ticksOf, step, hf]
    exact ticks_instr hf hw hr

end Sys2Proof.Machine

/-! ### O41: what no step changes -/

namespace Sys2Proof.Machine

variable {s t u : State} {i : Instr} {pos : Nat}

/-- The parameters and the two mode pins are as before. -/
structure HandleAndModesKept (s t : State) : Prop where
  params : t.params = s.params
  mode1 : t.pins.mode1 = s.pins.mode1
  mode2 : t.pins.mode2 = s.pins.mode2

theorem HandleAndModesKept.trans (h : HandleAndModesKept s t) (h' : HandleAndModesKept t u) :
    HandleAndModesKept s u :=
  ⟨h'.params.trans h.params, h'.mode1.trans h.mode1, h'.mode2.trans h.mode2⟩

/-- An event that is no write of a mode pin. -/
def Micro.sparesModes : Micro → Bool
  | .pinWrite p _ => p != .mode1 && p != .mode2
  | .busBegin => true
  | .busEnd => true
  | .xfer _ _ => true
  | .delayUs _ => true
  | .respond _ _ => true

theorem drive_keeps_modes {p : Pin} (level : Level) (v : Pins) (h1 : p ≠ .mode1) (h2 : p ≠ .mode2) :
    (v.drive p level).mode1 = v.mode1 ∧ (v.drive p level).mode2 = v.mode2 := by
  cases p with
  | mode1 => exact absurd rfl h1
  | mode2 => exact absurd rfl h2
  | enable => exact ⟨rfl, rfl⟩
  | cs => exact ⟨rfl, rfl⟩

theorem micro_run_keeps_modes {m : Micro} (hm : m.sparesModes = true) (h : m.run s = .ok t) :
    HandleAndModesKept s t := by
  obtain ⟨hp, -⟩ := micro_run_keeps m s t h
  cases m with
  | busBegin => cases h; exact ⟨hp, rfl, rfl⟩
  | busEnd => cases h; exact ⟨hp, rfl, rfl⟩
  | delayUs n => cases h; exact ⟨hp, rfl, rfl⟩
  | respond o k => cases h; exact ⟨hp, rfl, rfl⟩
  | pinWrite p level =>
    cases h
    simp only [Micro.sparesModes, Bool.and_eq_true, bne_iff_ne] at hm
    obtain ⟨h1, h2⟩ := drive_keeps_modes level s.pins hm.1 hm.2
    exact ⟨hp, h1, h2⟩
  | xfer tx d =>
    simp only [Micro.run, xfer] at h
    cases hh : s.chip.answer s.draws (tx.value s.lat) with
    | error e => rw [hh] at h; cases h
    | ok r => rw [hh] at h; cases h; exact ⟨hp, rfl, rfl⟩

theorem readFrame_sparesModes (a : Byte) (last : RxDest) : (readFrame a last).all Micro.sparesModes = true := rfl

theorem writeFrame_sparesModes (a : Byte) (v : WriteValue) : (writeFrame a v).all Micro.sparesModes = true := rfl

/-- No instruction's sequence writes a mode pin (R223). -/
theorem program_sparesModes (i : Instr) : (program i).all Micro.sparesModes = true := by
  have hresp : ∀ op k, Micro.sparesModes (.respond op k) = true := fun _ _ => rfl
  cases i with
  | enableCurrent b => rfl
  | getCurrent => rfl
  | getMicrosteps => rfl
  | getRegister a => rfl
  | setRegister a v => rfl
  | tRead a => rfl
  | tWrite a v => rfl
  | setCurrent d =>
    cases hd : ampValid d <;>
      simp [program, setCurrentProgram, hd, torqueUpdate, readFrame_sparesModes, writeFrame_sparesModes, hresp]
  | setMicrosteps d =>
    cases hd : ustepValid d <;>
      simp [program, setMicrostepsProgram, hd, ctrlUpdate, readFrame_sparesModes, writeFrame_sparesModes, hresp]

theorem runFrom_keeps_modes {ms : List Micro} (hms : ms.all Micro.sparesModes = true)
    (h : runFrom i pos ms s = .ok t) : HandleAndModesKept s t := by
  induction ms generalizing pos s with
  | nil => cases h; exact ⟨rfl, rfl, rfl⟩
  | cons m rest ih =>
    obtain ⟨hm, hrest⟩ : m.sparesModes = true ∧ rest.all Micro.sparesModes = true := by simpa using hms
    rw [runFrom] at h
    cases hrun : m.run s with
    | error e => rw [hrun] at h; cases h
    | ok u =>
      rw [hrun] at h
      obtain ⟨hp, h1, h2⟩ := micro_run_keeps_modes hm hrun
      obtain ⟨hp', h1', h2'⟩ := ih hrest h
      exact ⟨hp'.trans hp, h1'.trans h1, h2'.trans h2⟩

theorem drop_sparesModes (i : Instr) (pos : Nat) : ((program i).drop pos).all Micro.sparesModes = true :=
  List.all_eq_true.2 fun m hm => List.all_eq_true.1 (program_sparesModes i) m (List.mem_of_mem_drop hm)

theorem outcomeOf_next {r : Except Refusal State} (h : outcomeOf r = .next t) : r = .ok t := by
  cases r with
  | ok u => cases h; rfl
  | error e => cases h

theorem accept_keeps_modes (h : accept i s = .ok t) : HandleAndModesKept s t := by
  obtain ⟨hp, hpins, -⟩ := accept_keeps h
  exact ⟨hp, by rw [hpins], by rw [hpins]⟩

theorem exec_keeps_modes (h : exec i s = .next t) : HandleAndModesKept s t := by
  rw [exec_program, runInstr] at h
  have h := outcomeOf_next h
  cases ha : accept i s with
  | error e => rw [ha] at h; cases h
  | ok u =>
    rw [ha] at h
    exact (accept_keeps_modes ha).trans (runFrom_keeps_modes (program_sparesModes i) h)

theorem runRest_keeps_modes (h : runRest i pos s = .next t) : HandleAndModesKept s t :=
  runFrom_keeps_modes (drop_sparesModes i pos) (outcomeOf_next h)

theorem runEvent_keeps_modes (h : runEvent i pos s = .next t) : HandleAndModesKept s t := by
  have h := outcomeOf_next h
  have hall := drop_sparesModes i pos
  cases hm : (program i).drop pos with
  | nil => rw [hm] at h; cases h; exact ⟨rfl, rfl, rfl⟩
  | cons m rest =>
    rw [hm, List.all_cons, Bool.and_eq_true] at hall
    rw [hm] at h
    cases hrun : m.run s with
    | error e => simp [hrun] at h
    | ok u =>
      simp only [hrun, except_bind_ok, Except.ok.injEq] at h
      subst h
      obtain ⟨hp, h1, h2⟩ := micro_run_keeps_modes hall.1 hrun
      exact ⟨hp, h1, h2⟩

/-- A step keeps the parameters and the mode pins, or it was asked to reset: then the parameters are kept and the pins are
at their startup levels (R220, R222). -/
def KeptOrReset (s t : State) : Prop :=
  HandleAndModesKept s t ∨ (s.resetAsked ∧ t.params = s.params ∧ t.pins = Pins.startup)

theorem step_keptOrReset (h : step s = .next t) : KeptOrReset s t := by
  have hfound := fetch_finds s
  unfold step at h
  generalize fetch s = found at h hfound
  cases hfound with
  | stop r => cases h
  | timePasses later => cases h; exact .inl ⟨rfl, rfl, rfl⟩
  | reset later asked => cases h; exact .inr ⟨asked, rfl, rfl⟩
  | resume i pos => exact .inl (runRest_keeps_modes h)
  | instr i later =>
    obtain ⟨hp, h1, h2⟩ := exec_keeps_modes h
    exact .inl ⟨hp, h1, h2⟩

theorem tick_keptOrReset (h : tick s = .next t) : KeptOrReset s t := by
  have hfound := fetch_finds s
  unfold tick at h
  generalize fetch s = found at h hfound
  cases hfound with
  | stop r => cases h
  | timePasses later => cases h; exact .inl ⟨rfl, rfl, rfl⟩
  | reset later asked => cases h; exact .inr ⟨asked, rfl, rfl⟩
  | resume i pos => exact .inl (runEvent_keeps_modes h)
  | instr i later =>
    obtain ⟨hp, h1, h2⟩ := accept_keeps_modes (outcomeOf_next h)
    exact .inl ⟨hp, h1, h2⟩

theorem KeptOrReset.params (h : KeptOrReset s t) : t.params = s.params := by
  rcases h with h | ⟨-, hp, -⟩
  · exact h.params
  · exact hp

theorem KeptOrReset.modes (h : KeptOrReset s t) :
    (t.pins.mode1 = s.pins.mode1 ∧ t.pins.mode2 = s.pins.mode2) ∨ (t.pins.mode1 = false ∧ t.pins.mode2 = true) := by
  rcases h with h | ⟨-, -, hpins⟩
  · exact .inl ⟨h.mode1, h.mode2⟩
  · exact .inr (by rw [hpins]; exact ⟨rfl, rfl⟩)

theorem KeptOrReset.kept_of_not_resetAsked (h : KeptOrReset s t) (hr : ¬ s.resetAsked) : HandleAndModesKept s t :=
  h.resolve_right fun h => hr h.1

theorem not_resetAsked (hr : s.resetLine = false) (hh : ∀ later, s.host ≠ .reset :: later) : ¬ s.resetAsked := by
  rintro (h | ⟨later, h⟩)
  · rw [hr] at h; cases h
  · exact hh later h

/-- Settles O41: every step and every fine-grained step keeps the parameters and the mode pins, or is a reset that was
asked for. -/
theorem handleAndModePinsNeverChange : Obligations.HandleAndModePinsNeverChange := by
  have either : ∀ {s t : State}, step s = .next t ∨ tick s = .next t → KeptOrReset s t := fun h =>
    h.elim step_keptOrReset tick_keptOrReset
  refine ⟨?_, ?_, ?_, ?_, ?_⟩
  · exact fun s t h => (step_keptOrReset h).params
  · exact fun s t h => (tick_keptOrReset h).params
  · intro i s t h
    have hk := exec_keeps_modes h
    exact ⟨hk.mode1, hk.mode2⟩
  · intro s t hr hh h
    have hk := (either h).kept_of_not_resetAsked (not_resetAsked hr hh)
    exact ⟨hk.mode1, hk.mode2⟩
  · exact fun s t h => (either h).modes

end Sys2Proof.Machine

/-! ### O39: no operation sees what an earlier one left -/

namespace Sys2Proof.Machine

variable {s : State} {i : Instr}

/-- What `f` answers does not depend on what the latches hold. -/
def IgnoresLatches {α : Type} (f : State → α) : Prop := ∀ (s : State) (l : Latches), f { s with lat := l } = f s

/-- The replacement that O39 is about. -/
def State.withLeftovers (s : State) (lat : Latches) (valid : Bool) (data : Word32) : State :=
  { s with lat := lat, rspValid := valid, rspData := data }

/-- The acceptance drops the old response, so only the latches differ after it. -/
theorem accepted_withLeftovers (i : Instr) (s : State) (lat : Latches) (valid : Bool) (data : Word32) :
    accepted i (s.withLeftovers lat valid data) = { accepted i s with lat := lat.load s.params.kq i } := (rfl)

/-- From a state that is not ready, an instruction is refused. -/
theorem exec_of_not_ready (h : ¬ s.ready) :
    exec i s = .refused (if s.params.wf then .notReady else .badConfiguration) := by
  rw [exec_program, runInstr, accept]
  cases hw : s.params.wf with
  | false => rfl
  | true =>
    cases hs : s.seq with
    | idle => exact absurd ⟨hw, hs⟩ h
    | running j p => simp [State.busy, hs, outcomeOf]

/-- A read frame and the response to it: the reply bytes are latched afresh, and the response uses nothing else. -/
theorem respond_read_ignoresLatches (a : Byte) (op : BitVec 4) (k : ResultKind) (sq : Seq) :
    IgnoresLatches fun s => readExchange a s >>= fun r => .ok (afterResponse op k (afterRead a .low sq s r)) := by
  intro s l
  cases k <;> rfl

/-- A write frame of a given value and the response to it: likewise. -/
theorem respond_write_ignoresLatches (a : Byte) (v : Reg16) (op : BitVec 4) (k : ResultKind) (sq : Seq) :
    IgnoresLatches fun s => writeExchange a v s >>= fun r => .ok (afterResponse op k (afterWrite a v sq s r)) := by
  intro s l
  cases k <;> rfl

/-- A write frame of a given value uses no latch, so with what ignores the latches after it it ignores them too. -/
theorem write_bind_ignoresLatches {f : State → Except Refusal State} (hf : IgnoresLatches f) (a : Byte) (v : Reg16)
    (sq : Seq) :
    IgnoresLatches fun s => (writeExchange a v s >>= fun q => .ok (afterWrite a v sq s q)) >>= f := by
  intro s l
  have hwrite : writeExchange a v { s with lat := l } = writeExchange a v s := rfl
  beta_reduce
  rw [hwrite]
  cases writeExchange a v s with
  | error e => rfl
  | ok q => exact hf (afterWrite a v sq s q) _

/-- A read-modify-write whose value is made from the reply and from a latch that agrees sends the same bytes, so whatever
ignores the latches after it answers the same. -/
theorem updateFrames_bind_lat {f : State → Except Refusal State} (hf : IgnoresLatches f) (i : Instr) (pos : Nat) (a : Byte)
    (v : WriteValue) (s : State) (l : Latches)
    (hv : ∀ h lo t, v.value { l with rxh := h, rxl := lo, t := t } = v.value { s.lat with rxh := h, rxl := lo, t := t }) :
    (updateFrames i pos a v { s with lat := l } >>= f) = (updateFrames i pos a v s >>= f) := by
  have hread : readExchange a { s with lat := l } = readExchange a s := rfl
  rw [updateFrames, updateFrames, hread]
  cases readExchange a s with
  | error e => rfl
  | ok r =>
    have hvalue : v.value (afterRead a .lowAndT (.running i (pos + 9)) { s with lat := l } r).lat =
        v.value (afterRead a .lowAndT (.running i (pos + 9)) s r).lat := hv _ _ _
    rw [except_bind_ok, except_bind_ok, hvalue]
    exact write_bind_ignoresLatches hf a _ _ (afterRead a .lowAndT (.running i (pos + 9)) s r) _

/-- The latch that a valid set operation writes with is loaded at the acceptance. -/
theorem load_setCurrent_raw {d : Word32} (hd : ampValid d = true) (kq : Nat) (l : Latches) :
    (l.load kq (.setCurrent d)).raw = ampEnc kq d := by simp [Latches.load, hd]

theorem load_setMicrosteps_e {d : Reg16} (hd : ustepValid d = true) (kq : Nat) (l : Latches) :
    (l.load kq (.setMicrosteps d)).e = ustepEnc d := by simp [Latches.load, hd]

/-- From a ready state a host operation ends the same whatever was left: every latch it reads it has written. -/
theorem exec_withLeftovers (i : Instr) (s : State) (lat : Latches) (valid : Bool) (data : Word32)
    (hr : ∀ a, i ≠ .tRead a) (hw : ∀ a v, i ≠ .tWrite a v) (hs : s.ready) :
    exec i (s.withLeftovers lat valid data) = exec i s := by
  have hs' : (s.withLeftovers lat valid data).ready := hs
  cases i with
  | tRead a => exact absurd rfl (hr a)
  | tWrite a v => exact absurd rfl (hw a v)
  | enableCurrent b =>
    rw [exec_enableCurrent b _ hs, exec_enableCurrent b _ hs']
    rfl
  | getCurrent =>
    rw [exec_getCurrent _ hs, exec_getCurrent _ hs', accepted_withLeftovers]
    exact congrArg outcomeOf (respond_read_ignoresLatches 1 1 .amperes _ _ _)
  | getMicrosteps =>
    rw [exec_getMicrosteps _ hs, exec_getMicrosteps _ hs', accepted_withLeftovers]
    exact congrArg outcomeOf (respond_read_ignoresLatches 0 3 .microsteps _ _ _)
  | getRegister a =>
    rw [exec_getRegister a _ hs, exec_getRegister a _ hs', accepted_withLeftovers]
    exact congrArg outcomeOf (respond_read_ignoresLatches a 5 .raw _ _ _)
  | setRegister a v =>
    rw [exec_setRegister a v _ hs, exec_setRegister a v _ hs', accepted_withLeftovers]
    exact congrArg outcomeOf (respond_write_ignoresLatches a v 6 .raw _ _ _)
  | setCurrent d =>
    cases hd : ampValid d with
    | false =>
      rw [exec_setCurrent_skip d _ hs hd, exec_setCurrent_skip d _ hs' hd, accepted_withLeftovers]
      exact congrArg outcomeOf (respond_read_ignoresLatches 1 2 .amperes _ _ _)
    | true =>
      rw [exec_setCurrent_write d _ hs hd, exec_setCurrent_write d _ hs' hd, accepted_withLeftovers]
      refine congrArg outcomeOf (updateFrames_bind_lat (respond_read_ignoresLatches 1 2 .amperes _) _ _ _ _ _ _ ?_)
      intro h lo t
      simp only [value_torqueIns, accepted, load_setCurrent_raw hd]
  | setMicrosteps d =>
    cases hd : ustepValid d with
    | false =>
      rw [exec_setMicrosteps_skip d _ hs hd, exec_setMicrosteps_skip d _ hs' hd, accepted_withLeftovers]
      exact congrArg outcomeOf (respond_read_ignoresLatches 0 4 .microsteps _ _ _)
    | true =>
      rw [exec_setMicrosteps_write d _ hs hd, exec_setMicrosteps_write d _ hs' hd, accepted_withLeftovers]
      refine congrArg outcomeOf (updateFrames_bind_lat (respond_read_ignoresLatches 0 4 .microsteps _) _ _ _ _ _ _ ?_)
      intro h lo t
      simp only [value_ctrlIns, accepted, load_setMicrosteps_e hd]

/-- Settles O39: a block that is not ready refuses either way; a ready one drops the old response and reads no latch that
it has not written. -/
theorem hostOperationsKeepNoShadow : Obligations.HostOperationsKeepNoShadow := by
  intro i s lat valid data hr hw
  by_cases hs : s.ready
  · exact exec_withLeftovers i s lat valid data hr hw hs
  · exact (exec_of_not_ready (s := s.withLeftovers lat valid data) hs).trans (exec_of_not_ready hs).symm

end Sys2Proof.Machine

/-! ### O23 to O27: what answers a frame -/

namespace Sys2Proof.Machine

variable {s : State} {a : Byte} {v : Reg16}

/-- An instruction of one frame completes when the chip answers the frame. -/
theorem outcomeOf_bind_ok {α : Type} {x : Except Refusal α} {r : α} (f : α → State) (h : x = .ok r) :
    outcomeOf (x >>= fun r => .ok (f r)) = .next (f r) := by
  rw [h, except_bind_ok, outcomeOf]

/-- An instruction is refused when the chip refuses its first frame. -/
theorem outcomeOf_bind_error {α : Type} {x : Except Refusal α} {e : Refusal} (f : α → Except Refusal State)
    (h : x = .error e) : outcomeOf (x >>= f) = .refused e := by
  rw [h, except_bind_error, outcomeOf]

/-! #### The chip that an accepted instruction meets -/

theorem accepted_answers (i : Instr) (s : State) : (accepted i s).chip.answers = s.chip.answers :=
  drift_answers s.draws s.chip

theorem accepted_chip_reference (i : Instr) (h : s.chip.answers = .reference) : (accepted i s).chip = s.chip :=
  drift_reference s.draws s.chip h

/-! #### The general model and the floating line, for any three bytes sent -/

theorem exchange_of_oracle {c : Chip} {r0 r1 r2 : Byte} {rs : List Byte} (n : Nat) (b0 b1 b2 : Byte)
    (h : c.answers = .oracle (r0 :: r1 :: r2 :: rs)) :
    c.exchange n b0 b1 b2 = .ok ((r0, r1, r2), ⟨DevRegs.free (n + 2), .oracle rs, []⟩) := by
  obtain ⟨regs, ans, fr⟩ := c
  subst h
  exact exchange_oracle ..

theorem exchange_of_floating {c : Chip} {b : Byte} (n : Nat) (b0 b1 b2 : Byte) (h : c.answers = .floating b) :
    c.exchange n b0 b1 b2 = .ok ((b, b, b), ⟨DevRegs.free (n + 2), .floating b, []⟩) := by
  obtain ⟨regs, ans, fr⟩ := c
  subst h
  exact exchange_floating ..

/-! #### The reference device, for the bytes of a read frame and of a write frame -/

theorem exchange_of_reference {c : Chip} {b0 : Byte} (n : Nat) (b1 b2 : Byte) (h : c.answers = .reference)
    (hn : named (addrOf b0) = true) :
    c.exchange n b0 b1 b2 =
      .ok ((Config.freeReply n,
          if b0.getLsbD 7 then hiByte (c.regs.read (addrOf b0)) else Config.freeReply (n + 1),
          if b0.getLsbD 7 then loByte (c.regs.read (addrOf b0)) else Config.freeReply (n + 2)),
        ⟨c.regs.afterFrame [b0, b1, b2], .reference, []⟩) := by
  obtain ⟨regs, ans, fr⟩ := c
  subst h
  exact exchange_reference n b0 b1 b2 regs fr hn

/-- The end of a read frame changes no register (R63). -/
theorem afterFrame_readCommand (r : DevRegs) (a b1 b2 : Byte) : r.afterFrame [readCommand a, b1, b2] = r := by
  simp [DevRegs.afterFrame, readCommand_flag]

/-- The end of a write frame replaces the register it names (R63). -/
theorem afterFrame_writeCommand (r : DevRegs) (a : Byte) (v : Reg16) :
    r.afterFrame [writeCommand a, hiByte v, loByte v] = r.write (addrOf a) v := by
  rw [DevRegs.afterFrame, writeCommand_flag, if_neg Bool.false_ne_true, joinBytes_halves, addrOf_writeCommand]

theorem readExchange_reference (h : s.chip.answers = .reference) (ha : named (addrOf a) = true) :
    readExchange a s =
      .ok ((Config.freeReply s.draws, hiByte (s.chip.regs.read (addrOf a)), loByte (s.chip.regs.read (addrOf a))),
        ⟨s.chip.regs, .reference, []⟩) := by
  have hframe := exchange_of_reference s.draws 0 0 h (b0 := readCommand a) (by rwa [addrOf_readCommand])
  simpa only [readExchange, readCommand_flag, if_true, addrOf_readCommand, afterFrame_readCommand] using hframe

theorem writeExchange_reference (h : s.chip.answers = .reference) (ha : named (addrOf a) = true) :
    writeExchange a v s =
      .ok ((Config.freeReply s.draws, Config.freeReply (s.draws + 1), Config.freeReply (s.draws + 2)),
        ⟨s.chip.regs.write (addrOf a) v, .reference, []⟩) := by
  have hframe := exchange_of_reference s.draws (hiByte v) (loByte v) h (b0 := writeCommand a)
    (by rwa [addrOf_writeCommand])
  simpa only [writeExchange, writeCommand_flag, Bool.false_eq_true, if_false, afterFrame_writeCommand] using hframe

/-- The reference device refuses a frame whose first byte names no register, whatever the bytes after it (R63). -/
theorem exchange_unnamed {c : Chip} {b0 : Byte} (n : Nat) (b1 b2 : Byte) (h : c.answers = .reference)
    (ha : addrOf b0 = addrOf a) (hn : named (addrOf a) = false) :
    c.exchange n b0 b1 b2 = .error (.unnamedAddress (addrOf a)) := by
  obtain ⟨regs, ans, fr⟩ := c
  subst h
  rw [← ha] at hn ⊢
  exact exchange_refused n b0 b1 b2 regs fr hn

theorem readExchange_unnamed (h : s.chip.answers = .reference) (hn : named (addrOf a) = false) :
    readExchange a s = .error (.unnamedAddress (addrOf a)) :=
  exchange_unnamed _ _ _ h (addrOf_readCommand a) hn

theorem writeExchange_unnamed (h : s.chip.answers = .reference) (hn : named (addrOf a) = false) :
    writeExchange a v s = .error (.unnamedAddress (addrOf a)) :=
  exchange_unnamed _ _ _ h (addrOf_writeCommand a) hn

theorem named_eq_false_iff : ∀ a : BitVec 4, named a = false ↔ 8 ≤ a.toNat := by decide

/-! #### The obligations -/

/-- Settles O23: the frame's replies are the next three listed, and the second and the third are latched. -/
theorem oracleRepliesFormTheResult : Obligations.OracleRepliesFormTheResult := by
  intro a v s c h l rest hs hc
  have replies (i : Instr) (n : Nat) (b0 b1 b2 : Byte) : (accepted i s).chip.exchange n b0 b1 b2 =
      .ok ((c, h, l), ⟨DevRegs.free (n + 2), .oracle rest, []⟩) :=
    exchange_of_oracle n b0 b1 b2 ((accepted_answers i s).trans hc)
  exact ⟨⟨_, (exec_tRead a s hs).trans (outcomeOf_bind_ok _ (replies ..)), rfl, rfl⟩,
    ⟨_, (exec_tWrite a v s hs).trans (outcomeOf_bind_ok _ (replies ..)), rfl, rfl⟩⟩

/-- Settles O24: every reply of the frame is the line's constant, for whatever bytes are sent. -/
theorem floatingBusReadsOneConstant : Obligations.FloatingBusReadsOneConstant := by
  intro a v s b hs hb
  have replies (i : Instr) (n : Nat) (b0 b1 b2 : Byte) : (accepted i s).chip.exchange n b0 b1 b2 =
      .ok ((b, b, b), ⟨DevRegs.free (n + 2), .floating b, []⟩) :=
    exchange_of_floating n b0 b1 b2 ((accepted_answers i s).trans hb)
  exact ⟨⟨_, (exec_tRead a s hs).trans (outcomeOf_bind_ok _ (replies ..)), rfl⟩,
    ⟨_, (exec_tWrite a v s hs).trans (outcomeOf_bind_ok _ (replies ..)), rfl⟩,
    ⟨_, (exec_getRegister a s hs).trans (outcomeOf_bind_ok _ (replies ..)), rfl⟩,
    ⟨_, (exec_setRegister a v s hs).trans (outcomeOf_bind_ok _ (replies ..)), rfl⟩⟩

/-- Settles O25: the device answers with the register's two halves, which the response puts together again. -/
theorem referenceDeviceReadsItsRegister : Obligations.ReferenceDeviceReadsItsRegister := by
  intro a s hs href ha
  have hchip := accepted_chip_reference (.getRegister a) href
  have hread := readExchange_reference (s := accepted (.getRegister a) s) (hchip ▸ href) ((named_iff (addrOf a)).2 ha)
  rw [hchip] at hread
  refine ⟨_, (exec_getRegister a s hs).trans (outcomeOf_bind_ok _ hread), rfl, ?_, rfl, rfl⟩
  exact congrArg rawOf (joinBytes_halves _)

/-- Settles O26: the frame's end writes the addressed register; the rest is the registers' read-after-write law. -/
theorem referenceDeviceTakesAWrite : Obligations.ReferenceDeviceTakesAWrite := by
  intro a v s hs href ha
  have hnamed : named (addrOf a) = true := (named_iff (addrOf a)).2 ha
  have hchip := accepted_chip_reference (.setRegister a v) href
  have hwrite := writeExchange_reference (s := accepted (.setRegister a v) s) (v := v) (hchip ▸ href) hnamed
  rw [hchip] at hwrite
  refine ⟨_, (exec_setRegister a v s hs).trans (outcomeOf_bind_ok _ hwrite), rfl, ?_⟩
  intro x hx
  exact devRegs_read_write s.chip.regs (addrOf a) x v hnamed ((named_iff x).2 hx)

/-- Settles O27: each of the four sends a command byte of that address first, and the device refuses it. -/
theorem referenceDeviceRefusesUnnamedAddresses : Obligations.ReferenceDeviceRefusesUnnamedAddresses := by
  intro a v s hs href ha
  have hnamed : named (addrOf a) = false := (named_eq_false_iff (addrOf a)).2 ha
  have hacc : ∀ i, (accepted i s).chip.answers = .reference := fun i => (accepted_answers i s).trans href
  exact ⟨(exec_getRegister a s hs).trans (outcomeOf_bind_error _ (readExchange_unnamed (hacc _) hnamed)),
    (exec_setRegister a v s hs).trans (outcomeOf_bind_error _ (writeExchange_unnamed (hacc _) hnamed)),
    (exec_tRead a s hs).trans (outcomeOf_bind_error _ (readExchange_unnamed (hacc _) hnamed)),
    (exec_tWrite a v s hs).trans (outcomeOf_bind_error _ (writeExchange_unnamed (hacc _) hnamed))⟩

end Sys2Proof.Machine

/-! ### O1 to O5 and O21: the two encodings -/

namespace Sys2Proof

variable {w : CmdWord} {i : Instr} {op op' : BitVec 4} {a a' : Byte} {arg arg' : Word32}

/-! #### The command word -/

theorem commandWord_inj : commandWord op a arg = commandWord op' a' arg' ↔ op = op' ∧ a = a' ∧ arg = arg' := by
  constructor
  · intro h
    refine ⟨?_, ?_, ?_⟩
    · simpa using congrArg opField h
    · simpa using congrArg aField h
    · simpa using congrArg argField h
  · rintro ⟨rfl, rfl, rfl⟩
    rfl

/-- A command word under a mask that keeps the operation code: the other two fields are masked one by one. -/
theorem command_eq_masked (am : Byte) (gm : Word32) :
    Encoded.command (commandWord op' a' arg') =
        .command (commandWord op a arg &&& commandWord (BitVec.allOnes 4) am gm) ↔
      op' = op ∧ a' = a &&& am ∧ arg' = arg &&& gm := by
  have hmask : commandWord op a arg &&& commandWord (BitVec.allOnes 4) am gm =
      commandWord (op &&& BitVec.allOnes 4) (a &&& am) (arg &&& gm) := by
    rw [commandWord, commandWord, BitVec.and_append, BitVec.and_append, commandWord]
  rw [Encoded.command.injEq, hmask, commandWord_inj, BitVec.and_allOnes]

/-- A one-bit operand is the bit that the mask of bit 0 keeps. -/
theorem setWidth_ofBool_eq_and_one {b : Level} :
    (BitVec.ofBool b).setWidth 32 = arg &&& 1#32 ↔ b = arg.getLsbD 0 := by
  rw [BitVec.and_one_eq_setWidth_ofBool_getLsbD]
  constructor
  · intro h
    simpa using congrArg (fun x : Word32 => x.getLsbD 0) h
  · rintro rfl
    rfl

theorem low16_setWidth (d : Reg16) : (d.setWidth 32).extractLsb' 0 16 = d := by
  rw [BitVec.extractLsb'_setWidth_of_le (by decide), BitVec.extractLsb'_eq_self]

/-- A 16-bit operand is the half that the mask of the low half keeps. -/
theorem setWidth_eq_and_low16 {d : Reg16} : d.setWidth 32 = arg &&& 0xFFFF#32 ↔ d = arg.extractLsb' 0 16 := by
  have hlow : arg &&& 0xFFFF#32 = (arg.extractLsb' 0 16).setWidth 32 := by
    apply BitVec.eq_of_toNat_eq
    rw [BitVec.toNat_and, show (0xFFFF#32).toNat = 2 ^ 16 - 1 from rfl, Nat.and_two_pow_sub_one_eq_mod]
    simp only [BitVec.toNat_setWidth, BitVec.extractLsb'_toNat, Nat.shiftRight_zero]
    omega
  rw [hlow]
  constructor
  · intro h
    simpa only [low16_setWidth] using congrArg (BitVec.extractLsb' 0 16) h
  · rintro rfl
    rfl

/-- The row of Table E2 for the instruction, read off the three fields of a command word. -/
def Instr.hasFields (op : BitVec 4) (a : Byte) (arg : Word32) : Instr → Prop
  | .enableCurrent b => 0 = op ∧ b = arg.getLsbD 0
  | .getCurrent => 1 = op
  | .setCurrent d => 2 = op ∧ d = arg
  | .getMicrosteps => 3 = op
  | .setMicrosteps d => 4 = op ∧ d = arg.extractLsb' 0 16
  | .getRegister x => 5 = op ∧ x = a
  | .setRegister x v => 6 = op ∧ x = a ∧ v = arg.extractLsb' 0 16
  | .tRead _ => False
  | .tWrite _ _ => False

/-- The encoder and the mask agree with Table E2: the used bits of a command word are the encoding of exactly the
operation that its fields are the row of (R91). -/
theorem encode_eq_usedBits_iff :
    encode i = .command (commandWord op a arg &&& i.usedBits) ↔ i.hasFields op a arg := by
  cases i with
  | enableCurrent b => exact (command_eq_masked 0 1).trans (by simp [Instr.hasFields, setWidth_ofBool_eq_and_one])
  | getCurrent => exact (command_eq_masked 0 0).trans (by simp [Instr.hasFields])
  | setCurrent d =>
    exact (command_eq_masked 0 (BitVec.allOnes 32)).trans (by rw [BitVec.and_allOnes]; simp [Instr.hasFields])
  | getMicrosteps => exact (command_eq_masked 0 0).trans (by simp [Instr.hasFields])
  | setMicrosteps d => exact (command_eq_masked 0 0xFFFF).trans (by simp [Instr.hasFields, setWidth_eq_and_low16])
  | getRegister x =>
    exact (command_eq_masked (BitVec.allOnes 8) 0).trans (by rw [BitVec.and_allOnes]; simp [Instr.hasFields])
  | setRegister x v =>
    exact (command_eq_masked (BitVec.allOnes 8) 0xFFFF).trans (by
      rw [BitVec.and_allOnes]; simp [Instr.hasFields, setWidth_eq_and_low16])
  | tRead x => simp [encode, Instr.hasFields]
  | tWrite x v => simp [encode, Instr.hasFields]

/-- The decoder agrees with Table E2. -/
theorem decodeCommand_eq_ok_iff : decodeCommand (commandWord op a arg) = .ok i ↔ i.hasFields op a arg := by
  rw [decodeCommand_commandWord]
  constructor
  · intro h
    have code (k : BitVec 4) (hk : op.toNat = k.toNat) : k = op := BitVec.eq_of_toNat_eq hk.symm
    split at h <;> cases h
    next hop => exact ⟨code _ hop, rfl⟩
    next hop => exact code _ hop
    next hop => exact ⟨code _ hop, rfl⟩
    next hop => exact code _ hop
    next hop => exact ⟨code _ hop, rfl⟩
    next hop => exact ⟨code _ hop, rfl⟩
    next hop => exact ⟨code _ hop, rfl, rfl⟩
  · intro h
    cases i with
    | enableCurrent b => obtain ⟨rfl, rfl⟩ := h; rfl
    | getCurrent => obtain rfl : 1 = op := h; rfl
    | setCurrent d => obtain ⟨rfl, rfl⟩ := h; rfl
    | getMicrosteps => obtain rfl : 3 = op := h; rfl
    | setMicrosteps d => obtain ⟨rfl, rfl⟩ := h; rfl
    | getRegister x => obtain ⟨rfl, rfl⟩ := h; rfl
    | setRegister x v => obtain ⟨rfl, rfl, rfl⟩ := h; rfl
    | tRead x => cases h
    | tWrite x v => cases h

/-- A command word decodes to an instruction exactly when its used bits are the encoding of it (R91). -/
theorem decode_command_iff : decode (.command w) = .ok i ↔ encode i = .command (w &&& i.usedBits) := by
  rw [decode, ← commandWord_fields w]
  exact decodeCommand_eq_ok_iff.trans encode_eq_usedBits_iff.symm

/-- A reserved operation code is rejected by name, whatever the rest of the word (R90). -/
theorem decode_command_reserved (h : 7 ≤ (opField w).toNat) :
    decode (.command w) = .error (.reservedOp (opField w)) := by
  rw [decode, ← commandWord_fields w, decodeCommand_commandWord, opField_commandWord]
  split
  case h_8 => rfl
  all_goals omega

/-! #### The wire frame -/

/-- A frame is a command byte and sixteen data bits (R81). -/
theorem frame_halves (f : FrameWord) : (f.extractLsb' 16 8 ++ f.extractLsb' 0 16 : FrameWord) = f :=
  (BitVec.extractLsb'_append_extractLsb'_eq_extractLsb' (start₁ := 0) rfl).trans BitVec.extractLsb'_eq_self

/-- The three bytes of a frame, the two data bytes taken together. -/
theorem frame_bytes (c h l : Byte) : (c ++ h ++ l : FrameWord) = c ++ (h ++ l : Reg16) := BitVec.append_assoc

theorem frame_inj {c c' : Byte} {v v' : Reg16} : (c ++ v : FrameWord) = c' ++ v' ↔ c = c' ∧ v = v' := by
  constructor
  · intro h
    constructor
    · simpa only [BitVec.extractLsb'_append_eq_left] using congrArg (BitVec.extractLsb' 16 8) h
    · simpa only [BitVec.extractLsb'_append_eq_right] using congrArg (BitVec.extractLsb' 0 16) h
  · rintro ⟨rfl, rfl⟩
    rfl

theorem frameAddr_frame (c : Byte) (v : Reg16) : frameAddr (c ++ v) = c &&& 0x0F#8 := by
  have hlow : ∀ c : Byte, (c.extractLsb' 0 4).setWidth 8 = c &&& 0x0F#8 := by decide
  rw [frameAddr, BitVec.extractLsb'_append_eq_of_le (by decide), hlow]

theorem frame_and_eq_iff {c m k : Byte} {v n l : Reg16} :
    (c ++ v : FrameWord) &&& (m ++ n) = k ++ l ↔ c &&& m = k ∧ v &&& n = l := by
  rw [BitVec.and_append, frame_inj]

/-- What the decoder answers, by the command byte and the data bits (R83, R84). -/
theorem decodeFrame_frame (c : Byte) (v : Reg16) :
    decodeFrame (c ++ v) =
      if c &&& 0xF0#8 = 0x80#8 ∧ v = 0#16 then .ok (.tRead (c &&& 0x0F#8))
      else if c &&& 0xF0#8 = 0#8 then .ok (.tWrite (c &&& 0x0F#8) v)
      else .error (.notAFrame (c ++ v)) := by
  have hread : (c ++ v : FrameWord) &&& 0xF0FFFF#24 = 0x800000#24 ↔ c &&& 0xF0#8 = 0x80#8 ∧ v = 0#16 := by
    have h := frame_and_eq_iff (c := c) (v := v) (m := 0xF0#8) (n := BitVec.allOnes 16) (k := 0x80#8) (l := 0)
    rwa [BitVec.and_allOnes] at h
  have hwrite : (c ++ v : FrameWord) &&& 0xF00000#24 = 0#24 ↔ c &&& 0xF0#8 = 0#8 := by
    have h := frame_and_eq_iff (c := c) (v := v) (m := 0xF0#8) (n := 0#16) (k := 0#8) (l := 0#16)
    rwa [BitVec.and_zero, eq_self, and_true] at h
  simp only [decodeFrame, hread, hwrite, frameAddr_frame, BitVec.extractLsb'_append_eq_right]

/-! #### The command byte (R82) -/

theorem commandByte_high (read : Bool) (a : Byte) : commandByte read a &&& 0xF0#8 = if read then 0x80#8 else 0#8 := by
  revert read a; decide

theorem commandByte_low (read : Bool) (a : Byte) : commandByte read a &&& 0x0F#8 = a &&& 0x0F#8 := by
  revert read a; decide

theorem commandByte_eq (read : Bool) (a : Byte) :
    commandByte read a = (if read then 0x80#8 else 0#8) ||| (a &&& 0x0F#8) := by
  revert read a; decide

/-- A byte with bits 6 to 4 zero is the command byte of its own address. -/
theorem commandByte_of_high (read : Bool) (c : Byte) (h : c &&& 0xF0#8 = if read then 0x80#8 else 0#8) :
    commandByte read (c &&& 0x0F#8) = c := by
  revert read c; decide

/-- A frame carries the four low address bits alone (R85). -/
theorem commandByte_and_low (read : Bool) (a : Byte) : commandByte read (a &&& 0x0F#8) = commandByte read a := by
  revert read a; decide

theorem wf_address_iff (a : Byte) : (a.extractLsb' 4 4 == 0) = true ↔ a &&& 0x0F#8 = a := by
  revert a; decide

/-! #### Encoded frames -/

theorem encode_tRead (a : Byte) : encode (.tRead a) = .frame (commandByte true a ++ 0#16) :=
  congrArg Encoded.frame (frame_bytes ..)

theorem encode_tWrite (a : Byte) (v : Reg16) : encode (.tWrite a v) = .frame (commandByte false a ++ v) := rfl

theorem decode_encode_tRead (a : Byte) : decode (encode (.tRead a)) = .ok (.tRead (a &&& 0x0F#8)) := by
  rw [encode_tRead, decode, decodeFrame_frame, commandByte_high, commandByte_low]
  rfl

theorem decode_encode_tWrite (a : Byte) (v : Reg16) :
    decode (encode (.tWrite a v)) = .ok (.tWrite (a &&& 0x0F#8) v) := by
  rw [encode_tWrite, decode, decodeFrame_frame, commandByte_high, commandByte_low]
  rfl

/-- Decoding an encoded command word gives the operation of its fields. -/
theorem decode_encode_of_hasFields (he : encode i = .command (commandWord op a arg)) (hi : i.hasFields op a arg) :
    decode (encode i) = .ok i := by
  rw [he]
  exact decodeCommand_eq_ok_iff.2 hi

/-- Settles O1: a command word has its operation's fields; a frame keeps the four low address bits, which are all of a
well-formed address.-/
theorem decodeOfEncodeIsTheInstruction : Obligations.DecodeOfEncodeIsTheInstruction := by
  intro i hi
  cases i with
  | enableCurrent b => exact decode_encode_of_hasFields rfl ⟨rfl, by simp⟩
  | getCurrent => exact decode_encode_of_hasFields rfl rfl
  | setCurrent d => exact decode_encode_of_hasFields rfl ⟨rfl, rfl⟩
  | getMicrosteps => exact decode_encode_of_hasFields rfl rfl
  | setMicrosteps d => exact decode_encode_of_hasFields rfl ⟨rfl, (low16_setWidth _).symm⟩
  | getRegister x => exact decode_encode_of_hasFields rfl ⟨rfl, rfl⟩
  | setRegister x v => exact decode_encode_of_hasFields rfl ⟨rfl, rfl, (low16_setWidth _).symm⟩
  | tRead x => rw [decode_encode_tRead, (wf_address_iff x).1 hi]
  | tWrite x v => rw [decode_encode_tWrite, (wf_address_iff x).1 hi]

/-- Settles O2: by the two frames the decoder takes; the command byte is determined by its fixed bits and its address.-/
theorem encodeOfDecodedFrameIsTheFrame : Obligations.EncodeOfDecodedFrameIsTheFrame := by
  intro f i h
  rw [← frame_halves f] at h ⊢
  generalize f.extractLsb' 16 8 = c at h ⊢
  generalize f.extractLsb' 0 16 = v at h ⊢
  have hwf : ((c &&& 0x0F#8).extractLsb' 4 4 == 0) = true := by
    rw [wf_address_iff, BitVec.and_assoc, BitVec.and_self]
  rw [decode, decodeFrame_frame] at h
  split at h
  next hc =>
    obtain ⟨hc, rfl⟩ := hc
    cases h
    exact ⟨hwf, by rw [encode_tRead, commandByte_of_high true c hc]⟩
  next =>
    split at h
    next hc =>
      cases h
      exact ⟨hwf, by rw [encode_tWrite, commandByte_of_high false c hc]⟩
    next => cases h

/-- Settles O3: decoding to an operation is a condition on the bits that the operation uses.-/
theorem ignoredFieldsAreIgnored : Obligations.IgnoredFieldsAreIgnored := by
  intro w i h
  have he := decode_command_iff.1 h
  refine ⟨he, ?_⟩
  intro w' hw'
  exact decode_command_iff.2 (hw' ▸ he)

/-- Settles O4: the six words, decoded.-/
theorem wordsOfTheSpecDecode : Obligations.WordsOfTheSpecDecode := by
  unfold Obligations.WordsOfTheSpecDecode
  decide

end Sys2Proof

namespace Sys2Proof.Machine

variable {s t : State} {a : Byte} {v : Reg16} {later : List HostReq}

/-! #### A refused command word -/

theorem fetchIdle_command_error {w : CmdWord} {e : DecodeError} (h : s.host = .command w :: later)
    (hd : decode (.command w) = .error e) : fetchIdle s = .stop (refusalOf e) := by
  simp [fetchIdle, h, hd]

theorem step_of_fetch_stop {r : Refusal} (h : fetch s = .stop r) : step s = .refused r := by rw [step, h]

/-- Settles O5: the ready block's fetch is the command word, which the decoder rejects by its code.-/
theorem reservedOperationCodesAreRefused : Obligations.ReservedOperationCodesAreRefused := by
  intro s w later hs hr hh hop
  exact step_of_fetch_stop ((fetch_ready hs hr).trans (fetchIdle_command_error hh (decode_command_reserved hop)))

/-! #### The bytes of a frame that the transport sends -/

theorem accepted_takes (i : Instr) (s : State) (a : Byte) : (accepted i s).chip.takes a = s.chip.takes a :=
  drift_takes s.draws s.chip a

/-- A chip that takes the address answers the read frame. -/
theorem exec_tRead_completes (hs : s.ready) (ht : s.chip.takes a = true) :
    ∃ r, exec (.tRead a) s = .next (afterRead a .low .idle (accepted (.tRead a) s) r) := by
  obtain ⟨r0, r1, r2, c, hx⟩ := exchange_ok (s.draws + 1) (readCommand a) 0 0 (accepted (.tRead a) s).chip
    (by rw [takes_readCommand, accepted_takes, ht])
  exact ⟨_, (exec_tRead a s hs).trans (outcomeOf_bind_ok _ hx)⟩

/-- A chip that takes the address answers the write frame. -/
theorem exec_tWrite_completes (v : Reg16) (hs : s.ready) (ht : s.chip.takes a = true) :
    ∃ r, exec (.tWrite a v) s = .next (afterWrite a v .idle (accepted (.tWrite a v) s) r) := by
  obtain ⟨r0, r1, r2, c, hx⟩ := exchange_ok (s.draws + 1) (writeCommand a) (hiByte v) (loByte v)
    (accepted (.tWrite a v) s).chip (by rw [takes_writeCommand, accepted_takes, ht])
  exact ⟨_, (exec_tWrite a v s hs).trans (outcomeOf_bind_ok _ hx)⟩

theorem newEvents_of_trace {es : List Event} (h : t.trace = s.trace ++ es) : newEvents s t = es := by
  rw [newEvents, h, List.drop_left]

theorem sent_readEvents (a c h l : Byte) :
    (readEvents a c h l).filterMap Event.sent = [commandByte true a, 0x00#8, 0x00#8] := by
  rw [commandByte_eq]; rfl

theorem sent_writeEvents (a : Byte) (v : Reg16) (c h l : Byte) :
    (writeEvents a v c h l).filterMap Event.sent = [commandByte false a, hiByte v, loByte v] := by
  rw [commandByte_eq, if_neg Bool.false_ne_true, BitVec.zero_or]; rfl

/-- Settles O21: the operation's new events are its frame's, and the encoding is the bytes they send.-/
theorem framesSentAreTheEncodings : Obligations.FramesSentAreTheEncodings := by
  refine ⟨?_, ?_, ?_⟩
  · intro a s hs ht
    obtain ⟨r, hx⟩ := exec_tRead_completes hs ht
    refine ⟨_, commandByte true a, 0x00#8, 0x00#8, hx, ?_, rfl⟩
    rw [newEvents_of_trace rfl, sent_readEvents]
  · intro a v s hs ht
    obtain ⟨r, hx⟩ := exec_tWrite_completes v hs ht
    refine ⟨_, commandByte false a, hiByte v, loByte v, hx, ?_, ?_⟩
    · rw [newEvents_of_trace rfl, sent_writeEvents]
    · rw [encode_tWrite, frame_bytes, ← joinBytes, joinBytes_halves]
  · intro a v
    rw [encode_tRead, encode_tRead, encode_tWrite, encode_tWrite, commandByte_and_low, commandByte_and_low]
    exact ⟨rfl, rfl⟩

end Sys2Proof.Machine

/-! ### O17 to O20, O22, O51: the transport -/

namespace Sys2Proof.Machine

variable {s t : State} {i : Instr} {pos : Nat} {a : Byte} {v : Reg16}

/-! #### One byte on the line -/

/-- The levels `(SCK, MOSI)` of one bit's period (R115). -/
def bitPeriod (tx : Byte) (i : Nat) : List (Level × Level) := [(false, tx.getLsbD i), (true, tx.getLsbD i)]

/-- The waveform of any row of bit positions is their periods, one after the other. -/
theorem foldl_period_wave (cfg : BusCfg) (tx miso : Byte) (positions : List Nat) (sh : Shift) :
    (positions.foldl (Shift.period cfg tx miso) sh).wave = sh.wave ++ positions.flatMap (bitPeriod tx) := by
  induction positions generalizing sh with
  | nil => simp
  | cons i rest ih =>
    rw [List.foldl_cons, ih, List.flatMap_cons, ← List.append_assoc]
    simp [Shift.period, bitPeriod]

theorem positions_eq (o : BitOrder) : BitOrder.positions o = [7, 6, 5, 4, 3, 2, 1, 0] := by cases o; rfl

/-- Settles O17: the periods follow the bit order of the bus, and a byte assembled bit by bit is the byte on the line. -/
theorem transferIsMostSignificantBitFirst : Obligations.TransferIsMostSignificantBitFirst := by
  intro cfg tx miso
  refine ⟨shiftByte_rx cfg tx miso, ?_⟩
  rw [shiftByte, foldl_period_wave, positions_eq, List.nil_append]
  rfl

/-! #### What an operation of one frame leaves -/

theorem afterFrame_kept (es : List Event) (lat : Latches) (chip : Chip) (i : Instr) (s : State) :
    Kept s (afterFrame es lat chip .idle (accepted i s)) := ⟨rfl, rfl, rfl, rfl, rfl, rfl, rfl⟩

theorem afterFrame_busReleased (es : List Event) (lat : Latches) (chip : Chip) (sq : Seq) (s : State) :
    BusReleased (afterFrame es lat chip sq s) := ⟨rfl, rfl, rfl, rfl, rfl⟩

/-- The reference device takes the named addresses alone (R52, R63). -/
theorem named_of_takes (hans : s.chip.answers = .reference) (ht : s.chip.takes a = true) : named (addrOf a) = true := by
  rwa [Chip.takes, hans] at ht

/-- Settles O18: the chip answers the frame of a read, which changes no register of the reference device. -/
theorem transportReadRunsItsFrame : Obligations.TransportReadRunsItsFrame := by
  intro a s hs ht
  obtain ⟨c, h, l, chip, hx, href, -⟩ := exchange_spec (s.draws + 1) (readCommand a) 0 0 (accepted (.tRead a) s).chip
    (by rw [takes_readCommand, accepted_takes, ht])
  refine ⟨c, h, l, _, (exec_tRead a s hs).trans (outcomeOf_bind_ok _ hx), rfl, rfl, rfl, afterFrame_kept ..,
    afterFrame_busReleased .., rfl, fun hans => ?_⟩
  obtain ⟨hans', hregs, -⟩ := href ((accepted_answers _ s).trans hans)
  rw [afterFrame_readCommand, accepted_chip_reference _ hans] at hregs
  exact ⟨hans', fun x => congrArg (DevRegs.read · x) hregs⟩

/-- Settles O19: the chip answers the frame of a write, at whose end the reference device takes the value. -/
theorem transportWriteRunsItsFrame : Obligations.TransportWriteRunsItsFrame := by
  intro a v s hs ht
  obtain ⟨c, h, l, chip, hx, href, -⟩ := exchange_spec (s.draws + 1) (writeCommand a) (hiByte v) (loByte v)
    (accepted (.tWrite a v) s).chip (by rw [takes_writeCommand, accepted_takes, ht])
  refine ⟨c, h, l, _, (exec_tWrite a v s hs).trans (outcomeOf_bind_ok _ hx), rfl, rfl, rfl, afterFrame_kept ..,
    afterFrame_busReleased .., rfl, fun hans => ?_⟩
  obtain ⟨hans', hregs, -⟩ := href ((accepted_answers _ s).trans hans)
  rw [afterFrame_writeCommand, accepted_chip_reference _ hans] at hregs
  exact ⟨hans', fun x hx => (congrArg (DevRegs.read · x) hregs).trans
    (devRegs_read_write s.chip.regs (addrOf a) x v (named_of_takes hans ht) hx)⟩

/-! #### The command byte -/

theorem commandByte_address (read : Bool) (a : Byte) : (commandByte read a).extractLsb' 0 4 = a.extractLsb' 0 4 := by
  revert read a; decide

theorem commandByte_zeros (read : Bool) (a : Byte) : (commandByte read a).extractLsb' 4 3 = 0#3 := by
  revert read a; decide

theorem commandByte_flag (read : Bool) (a : Byte) : (commandByte read a).getLsbD 7 = read := by
  revert read a; decide

theorem readCommand_eq (a : Byte) : readCommand a = commandByte true a := by
  revert a; decide

theorem writeCommand_eq (a : Byte) : writeCommand a = commandByte false a := by
  revert a; decide

theorem firstSent_readEvents (a c h l : Byte) : firstSent (readEvents a c h l) = some (commandByte true a) := by
  rw [commandByte_eq]; rfl

theorem firstSent_writeEvents (a : Byte) (v : Reg16) (c h l : Byte) :
    firstSent (writeEvents a v c h l) = some (commandByte false a) := by
  rw [← writeCommand_eq]; rfl

/-- An operation that ran through its one frame and completed had the frame answered. -/
theorem outcomeOf_bind_next {α : Type} {x : Except Refusal α} {f : α → State}
    (h : outcomeOf (x >>= fun r => .ok (f r)) = .next t) : ∃ r, t = f r := by
  cases x with
  | ok r => cases h; exact ⟨r, rfl⟩
  | error e => cases h

theorem firstSent_of_exec_tRead (h : exec (.tRead a) s = .next t) :
    firstSent (newEvents s t) = some (commandByte true a) := by
  rw [exec_tRead a s (ready_of_exec _ s t h)] at h
  obtain ⟨r, rfl⟩ := outcomeOf_bind_next h
  rw [newEvents_of_trace rfl, firstSent_readEvents]

theorem firstSent_of_exec_tWrite (h : exec (.tWrite a v) s = .next t) :
    firstSent (newEvents s t) = some (commandByte false a) := by
  rw [exec_tWrite a v s (ready_of_exec _ s t h)] at h
  obtain ⟨r, rfl⟩ := outcomeOf_bind_next h
  rw [newEvents_of_trace rfl, firstSent_writeEvents]

/-- Settles O20: the first byte sent is the command byte, with the read flag of the operation. -/
theorem commandByteCarriesAddressAndReadFlag : Obligations.CommandByteCarriesAddressAndReadFlag := by
  intro a v s t
  constructor
  · exact fun h => ⟨_, firstSent_of_exec_tRead h, commandByte_address true a, commandByte_zeros true a,
      commandByte_flag true a⟩
  · exact fun h => ⟨_, firstSent_of_exec_tWrite h, commandByte_address false a, commandByte_zeros false a,
      commandByte_flag false a⟩

/-! #### What holds of every micro-sequence -/

/-- Every operation's sequence is put together from frames, the write of the power pin and the response: what holds of
these and of their concatenation holds of the sequence. -/
theorem program_of_parts {Q : List Micro → Prop} (nil : Q []) (append : ∀ {ms ns}, Q ms → Q ns → Q (ms ++ ns))
    (read : ∀ a last, Q (readFrame a last)) (write : ∀ a v, Q (writeFrame a v))
    (enable : ∀ level, Q [.pinWrite .enable level]) (respond : ∀ op k, Q [.respond op k]) (i : Instr) :
    Q (program i) := by
  have confirm : ∀ {update : List Micro} (a : Byte) op k, Q update → Q (update ++ readFrame a .low ++ [.respond op k]) :=
    fun a op k hu => append (append hu (read a .low)) (respond op k)
  cases i with
  | enableCurrent b => exact append (enable b) (respond 0 .zero)
  | getCurrent => exact append (read _ _) (respond _ _)
  | getMicrosteps => exact append (read _ _) (respond _ _)
  | getRegister a => exact append (read _ _) (respond _ _)
  | setRegister a v => exact append (write _ _) (respond _ _)
  | tRead a => exact read a .low
  | tWrite a v => exact write a (.word v)
  | setCurrent d =>
    refine confirm _ _ _ ?_
    split
    · exact append (read _ _) (write _ _)
    · exact nil
  | setMicrosteps d =>
    refine confirm _ _ _ ?_
    split
    · exact append (read _ _) (write _ _)
    · exact nil

theorem drop_of_getElem? {α : Type} {ms : List α} {m : α} (h : ms[pos]? = some m) :
    ms.drop pos = m :: ms.drop (pos + 1) := by
  obtain ⟨hlt, rfl⟩ := List.getElem?_eq_some_iff.1 h
  exact List.drop_eq_getElem_cons hlt

/-! #### The delays -/

/-- Every delay of a sequence is 200 microseconds. -/
theorem program_delay {us : Nat} (i : Instr) : Micro.delayUs us ∈ program i → us = 200 := by
  refine program_of_parts (Q := fun ms => .delayUs us ∈ ms → us = 200) ?_ ?_ ?_ ?_ ?_ ?_ i
  · simp
  · intro ms ns hms hns h
    exact (List.mem_append.1 h).elim hms hns
  · simp [readFrame, Config.tSettle]
  · simp [writeFrame, Config.tSettle, Config.tPost]
  · simp
  · simp

/-- Settles O22: the fine-grained step at a delay is the delay primitive, which records its event and loads the timer. -/
theorem delaysAreTwoHundredMicrosecondsAndChangeNoLine : Obligations.DelaysAreTwoHundredMicrosecondsAndChangeNoLine := by
  refine ⟨fun i us => program_delay i, ?_⟩
  intro i pos us s hw hr hs hm
  exact ⟨_, tick_running hw hr hs (drop_of_getElem? hm), rfl, rfl, rfl, rfl, rfl, rfl, rfl, rfl, rfl, rfl⟩

/-! #### The frame discipline of every micro-sequence, and the preconditions -/

theorem wirePhase_cons_of_next {ph ph' : WirePhase} {e : Event} (h : ph.next e = some ph') (es : List Event) :
    wirePhase ph (e :: es) = wirePhase ph' es := by rw [wirePhase, h]

/-- The first three events of a frame, whose command byte says whether it is a read (R82). -/
theorem wirePhase_opened (read : Bool) (a : Byte) (rest : List Event) :
    wirePhase .idle (.busBegin :: .pin .cs false :: .xfer (commandByte read a) 0 :: rest) =
      wirePhase (.sent 1 read) rest := by
  have hcmd : WirePhase.next .selected (.xfer (commandByte read a) 0) = some (.sent 1 read) := by
    rw [next_selected, commandByte_zeros, if_pos rfl, commandByte_flag]
  rw [wirePhase_cons_of_next (ph' := .held) rfl, wirePhase_cons_of_next (ph' := .selected) rfl,
    wirePhase_cons_of_next hcmd]

/-- A read frame goes through the phases of a frame (R83, R117, R120). -/
theorem wirePhase_readFrame (a : Byte) (last : RxDest) :
    wirePhase .idle ((readFrame a last).map Micro.sketch) = some .idle := by
  rw [readFrame, readCommand_eq]
  exact wirePhase_opened true a _

/-- A write frame goes through the phases of a frame, whatever its data (R84, R117, R121). -/
theorem wirePhase_writeFrame (a : Byte) (v : WriteValue) :
    wirePhase .idle ((writeFrame a v).map Micro.sketch) = some .idle := by
  rw [writeFrame, writeCommand_eq]
  exact wirePhase_opened false a _

/-- Every sequence obeys the frame discipline and ends between frames. -/
theorem wirePhase_program (i : Instr) : wirePhase .idle ((program i).map Micro.sketch) = some .idle := by
  refine program_of_parts (Q := fun ms => wirePhase .idle (ms.map Micro.sketch) = some .idle) rfl ?_
    wirePhase_readFrame wirePhase_writeFrame (fun _ => rfl) (fun _ _ => rfl) i
  intro ms ns hms hns
  rw [List.map_append, wirePhase_append, hms, Option.bind_some, hns]

/-- The event at the sequencer's position may happen in the phase of that position. -/
theorem next_of_phase {m : Micro} {ph : WirePhase} (hph : (Seq.running i pos).phase = some ph)
    (hm : (program i)[pos]? = some m) : ∃ ph', ph.next m.sketch = some ph' := by
  have hwhole := wirePhase_program i
  rw [Seq.phase] at hph
  rw [← List.take_append_drop pos (program i), drop_of_getElem? hm, List.map_append, wirePhase_append,
    hph, Option.bind_some, List.map_cons, wirePhase] at hwhole
  cases hn : ph.next m.sketch with
  | some ph' => exact ⟨ph', rfl⟩
  | none => simp [hn] at hwhole

/-- The bus is begun only between frames (R111). -/
theorem free_of_next_busBegin {ph ph' : WirePhase} (h : ph.next .busBegin = some ph') :
    ph.busHeld = false ∧ ph.cs = true := by
  cases ph with
  | idle => exact ⟨rfl, rfl⟩
  | sent n read => simp [WirePhase.next] at h
  | raised read => simp [WirePhase.next] at h
  | held => cases h
  | selected => cases h
  | settled n read => cases h
  | latched => cases h

/-- The bus is released only after chip-select went high (R112). -/
theorem raised_of_next_busEnd {ph ph' : WirePhase} (h : ph.next .busEnd = some ph') :
    ph.busHeld = true ∧ ph.cs = true := by
  cases ph with
  | raised read => exact ⟨rfl, rfl⟩
  | latched => exact ⟨rfl, rfl⟩
  | sent n read => simp [WirePhase.next] at h
  | idle => cases h
  | held => cases h
  | selected => cases h
  | settled n read => cases h

/-- A byte is transferred only while chip-select is low (R114). -/
theorem selected_of_next_xfer {ph ph' : WirePhase} {tx rx : Byte} (h : ph.next (.xfer tx rx) = some ph') :
    ph.busHeld = true ∧ ph.cs = false := by
  cases ph with
  | selected => exact ⟨rfl, rfl⟩
  | settled n read => exact ⟨rfl, rfl⟩
  | sent n read => simp [WirePhase.next] at h
  | raised read => simp [WirePhase.next] at h
  | idle => cases h
  | held => cases h
  | latched => cases h

theorem sketch_xfer (tx : TxByte) (dst : RxDest) : ∃ b, (Micro.xfer tx dst).sketch = .xfer b 0 := by
  cases tx with
  | byte b => exact ⟨b, rfl⟩
  | hi w => exact ⟨0, rfl⟩
  | lo w => exact ⟨0, rfl⟩

/-- Where the wire is in a phase and the frame discipline lets an event happen, its primitive's precondition is met. -/
theorem precondition_of_next {m : Micro} {ph ph' : WirePhase} (hcs : s.pins.cs = ph.cs) (hheld : s.busHeld = ph.busHeld)
    (h : ph.next m.sketch = some ph') : m.precondition s := by
  cases m with
  | pinWrite p level => trivial
  | delayUs us => trivial
  | respond op k => trivial
  | busBegin =>
    rw [Micro.precondition, hheld, hcs]
    exact free_of_next_busBegin h
  | busEnd =>
    rw [Micro.precondition, hheld, hcs]
    exact raised_of_next_busEnd h
  | xfer tx dst =>
    obtain ⟨b, hb⟩ := sketch_xfer tx dst
    rw [hb] at h
    rw [Micro.precondition, hheld, hcs]
    exact selected_of_next_xfer h

/-- Settles O51: the invariant puts the pins and the bus in the phase of the sequencer's position, in which the frame
discipline of the sequence lets the event happen. -/
theorem preconditionsAreAlwaysMet : Obligations.PreconditionsAreAlwaysMet := by
  intro s i pos m hinv hs hm
  obtain ⟨ph, hph, -, hcs, hheld, -⟩ := hinv.wire
  rw [hs] at hph
  obtain ⟨ph', hnext⟩ := next_of_phase hph hm
  exact precondition_of_next hcs hheld hnext

end Sys2Proof.Machine

/-! ### O7, O9 to O16: the parameters' constraint and the codec -/

namespace Sys2Proof.Machine

variable {s : State} {kq : Nat} {d : Word32} {u : Reg16}

/-! #### The constraint on the parameters -/

theorem kqOk_iff : kqOk kq = true ↔ 0 < kq ∧ 262144 * kq + 2 ^ 31 < 256 * 2 ^ 32 := by
  rw [kqOk, Bool.and_eq_true, decide_eq_true_iff, decide_eq_true_iff]

theorem fetch_badConfiguration (h : s.params.wf = false) : fetch s = .stop .badConfiguration := by
  simp [fetch, h]

theorem exec_badConfiguration (i : Instr) (h : s.params.wf = false) : exec i s = .refused .badConfiguration := by
  have hnot : ¬ s.ready := fun hs => Bool.false_ne_true (h.symm.trans hs.1)
  rw [exec_of_not_ready hnot, h, if_neg Bool.false_ne_true]

/-- Settles O7: the fetch and the acceptance both stop at the parameters. -/
theorem badConfigurationIsRefused : Obligations.BadConfigurationIsRefused := by
  refine ⟨fun s h => step_of_fetch_stop (fetch_badConfiguration h), fun i s h => exec_badConfiguration i h,
    fun kq => kqOk_iff, by decide, ?_, by decide, by decide⟩
  intro kq h
  obtain ⟨-, hmax⟩ := kqOk_iff.1 h
  omega

/-! #### The intervals of the signed operands -/

/-- A signed word above 0 and at most `n` is its unsigned reading. -/
theorem toNat_bounds_of_toInt {w n : Nat} {x : BitVec w} (hpos : 0 < x.toInt) (hmax : x.toInt ≤ n) :
    x.toInt = x.toNat ∧ 0 < x.toNat ∧ x.toNat ≤ n := by
  have h : x.toInt = x.toNat := BitVec.toInt_eq_toNat_of_lt (BitVec.toInt_pos_iff.1 hpos.le)
  omega

theorem ampValid_iff : ampValid d = true ↔ 0 < d.toInt ∧ d.toInt ≤ 262144 := by
  rw [ampValid, Bool.and_eq_true, decide_eq_true_iff, decide_eq_true_iff]

theorem ustepValid_iff : ustepValid u = true ↔ 0 < u.toInt ∧ u.toInt ≤ 256 := by
  rw [ustepValid, Bool.and_eq_true, decide_eq_true_iff, decide_eq_true_iff]

theorem ampValid_toNat (h : ampValid d = true) : d.toInt = d.toNat ∧ 0 < d.toNat ∧ d.toNat ≤ 262144 :=
  toNat_bounds_of_toInt (ampValid_iff.1 h).1 (ampValid_iff.1 h).2

theorem ustepValid_toNat (h : ustepValid u = true) : u.toInt = u.toNat ∧ 0 < u.toNat ∧ u.toNat ≤ 256 :=
  toNat_bounds_of_toInt (ustepValid_iff.1 h).1 (ustepValid_iff.1 h).2

/-- Settles O9: `ampValid` decides the two bounds. -/
theorem ampValidIsTheInterval : Obligations.AmpValidIsTheInterval := fun _ => ampValid_iff

/-! #### The code of a current -/

/-- The constraint on `KQ` is what makes every valid operand's code fit eight bits (R142). -/
theorem ampEnc_toNat (hk : kqOk kq = true) (hd : ampValid d = true) :
    (ampEnc kq d).toNat = (d.toNat * kq + 2 ^ 31) / 2 ^ 32 := by
  obtain ⟨-, hfits⟩ := kqOk_iff.1 hk
  obtain ⟨-, -, hmax⟩ := ampValid_toNat hd
  have hmul : d.toNat * kq ≤ 262144 * kq := Nat.mul_le_mul_right kq hmax
  rw [ampEnc, BitVec.toNat_ofNat, Nat.mod_eq_of_lt]
  omega

theorem ampEnc_default_toNat (hd : ampValid d = true) :
    (ampEnc 1725568 d).toNat = (d.toNat * 1725568 + 2 ^ 31) / 2 ^ 32 := ampEnc_toNat (by decide) hd

/-- The default `KQ` is an odd multiple of 2^7, so a tie's operand would be a multiple of 2^24. -/
theorem default_product_no_tie {n : Nat} (hpos : 0 < n) (hmax : n ≤ 262144) : (n * 1725568 + 2 ^ 31) % 2 ^ 32 ≠ 0 := by
  intro htie
  obtain ⟨q, hq⟩ := Nat.dvd_of_mod_eq_zero htie
  have hscaled : n * 13481 + 2 ^ 24 = 2 ^ 24 * (2 * q) := by linarith
  have hodd : 2 ^ 24 ∣ n * 13481 := (Nat.dvd_add_left (dvd_refl _)).1 ⟨2 * q, hscaled⟩
  have hdvd : 2 ^ 24 ∣ n := Nat.Coprime.dvd_of_dvd_mul_right (by decide) hodd
  exact absurd ((Nat.le_of_dvd hpos hdvd).trans hmax) (by decide)

/-- Settles O10: the code is the whole rounded product, so its order and its bounds are the product's. -/
theorem ampEncRoundsTheProduct : Obligations.AmpEncRoundsTheProduct := by
  refine ⟨fun kq d => ampEnc_toNat, ?_, ?_, by decide, by decide⟩
  · intro kq d e hk hd he hde
    have hle : d.toNat ≤ e.toNat := by
      rw [(ampValid_toNat hd).1, (ampValid_toNat he).1] at hde
      exact Int.ofNat_le.1 hde
    rw [ampEnc_toNat hk hd, ampEnc_toNat hk he]
    gcongr
  · intro d hd
    obtain ⟨-, hpos, hmax⟩ := ampValid_toNat hd
    refine ⟨?_, default_product_no_tie hpos hmax, fun hsmall => BitVec.eq_of_toNat_eq ?_⟩
    · rw [ampEnc_default_toNat hd]
      omega
    · rw [ampEnc_default_toNat hd, Nat.div_eq_of_lt (by omega)]
      rfl

/-! #### The current of a code -/

/-- From 256 on, `KQ` divides the largest code's dividend into 32 bits. -/
theorem ampDec_toNat (hk : 256 ≤ kq) (raw : Byte) : (ampDec kq raw).toNat = (raw.toNat * 2 ^ 32 + kq / 2) / kq := by
  have hraw : raw.toNat < 2 ^ 8 := raw.isLt
  have hfits : ampDecQuotient kq raw < 2 ^ 32 := by
    rw [ampDecQuotient, Nat.div_lt_iff_lt_mul (by omega)]
    omega
  rw [ampDec, if_pos hfits, BitVec.toNat_ofNat, Nat.mod_eq_of_lt hfits, ampDecQuotient]

theorem ampDec_default_toNat (raw : Byte) :
    (ampDec 1725568 raw).toNat = (raw.toNat * 2 ^ 32 + 862784) / 1725568 := ampDec_toNat (by decide) raw

/-- Settles O11: the response is the whole rounded quotient; one code more adds 2^32 to its dividend, which is
more than the divisor. -/
theorem ampDecRoundsTheQuotient : Obligations.AmpDecRoundsTheQuotient := by
  refine ⟨fun kq raw hk => ampDec_toNat hk raw, ?_, ?_, by decide, by decide, by decide, by decide, by decide⟩
  · intro raw
    have hraw : raw.toNat < 2 ^ 8 := raw.isLt
    rw [ampDec_default_toNat]
    omega
  · intro raw raw' hlt
    rw [ampDec_default_toNat, ampDec_default_toNat]
    omega

/-! #### The round trip of a current -/

/-- A rounded quotient, multiplied back, is off by at most half the divisor. -/
theorem two_mul_abs_round_mul_sub_le (a : Nat) {b : Nat} (hb : 0 < b) :
    2 * |(((a + b / 2) / b : Nat) : Int) * b - a| ≤ b := by
  have hle : (a + b / 2) / b * b ≤ a + b / 2 := Nat.div_mul_le_self ..
  have hlt : a + b / 2 < (a + b / 2) / b * b + b := Nat.lt_div_mul_add hb
  rw [← Nat.cast_mul, abs_eq_max_neg]
  omega

/-- Encoding is off by at most half a unit of the code. -/
theorem ampEnc_error (hk : kqOk kq = true) (hd : ampValid d = true) :
    2 * |((ampEnc kq d).toNat : Int) * 2 ^ 32 - d.toNat * kq| ≤ 2 ^ 32 := by
  have hround := two_mul_abs_round_mul_sub_le (d.toNat * kq) (Nat.two_pow_pos 32)
  rw [Nat.cast_mul, Nat.cast_pow, Nat.cast_ofNat] at hround
  rwa [ampEnc_toNat hk hd]

/-- Decoding is off by at most half a unit of the current. -/
theorem ampDec_error (hk : 256 ≤ kq) (raw : Byte) :
    2 * |((ampDec kq raw).toNat : Int) * kq - raw.toNat * 2 ^ 32| ≤ (kq : Int) := by
  have hround := two_mul_abs_round_mul_sub_le (raw.toNat * 2 ^ 32) (Nat.zero_lt_of_lt hk)
  rwa [Nat.cast_mul, Nat.cast_pow, Nat.cast_ofNat, ← ampDec_toNat hk] at hround

/-- The round trip is off by at most the sum of the two errors. -/
theorem currentRoundTrip_error (hk : kqOk kq = true) (hk' : 256 ≤ kq) (hd : ampValid d = true) :
    2 * (|((ampDec kq (ampEnc kq d)).toNat : Int) - d.toInt| * kq) ≤ kq + 2 ^ 32 := by
  have henc := ampEnc_error hk hd
  have hdec := ampDec_error hk' (ampEnc kq d)
  rw [(ampValid_toNat hd).1]
  generalize ((ampDec kq (ampEnc kq d)).toNat : Int) = back at hdec ⊢
  generalize ((ampEnc kq d).toNat : Int) = code at henc hdec
  calc 2 * (|back - d.toNat| * kq)
      = 2 * |back * kq - d.toNat * kq| := by rw [← sub_mul, abs_mul, Nat.abs_cast]
    _ ≤ 2 * (|back * kq - code * 2 ^ 32| + |code * 2 ^ 32 - d.toNat * kq|) := by
        gcongr
        exact abs_sub_le ..
    _ ≤ kq + 2 ^ 32 := by linarith

/-- Settles O12: both bounds follow from the error over the default `KQ`. -/
theorem currentRoundTripIsWithinOneStep : Obligations.CurrentRoundTripIsWithinOneStep := by
  intro d hd back
  have herr : 2 * (|back - d.toInt| * (1725568 : Nat)) ≤ (1725568 : Nat) + 2 ^ 32 :=
    currentRoundTrip_error (by decide) (by decide) hd
  omega

/-! #### The exponent of a microstep count -/

/-- The exponent of a valid count fits the four-bit field. -/
theorem ustepEnc_toNat (hu : ustepValid u = true) : (ustepEnc u).toNat = Nat.log2 u.toNat ∧ (ustepEnc u).toNat ≤ 8 := by
  obtain ⟨-, hpos, hmax⟩ := ustepValid_toNat hu
  have hlog : Nat.log2 u.toNat < 9 := (Nat.log2_lt hpos.ne').2 (by omega)
  have henc : (ustepEnc u).toNat = Nat.log2 u.toNat := by
    rw [ustepEnc, BitVec.toNat_ofNat, Nat.mod_eq_of_lt (by omega)]
  exact ⟨henc, by omega⟩

/-- Settles O13: the exponent is the base-2 logarithm, whole, and so between the two powers. -/
theorem ustepEncIsFloorLog2 : Obligations.UstepEncIsFloorLog2 := by
  refine ⟨fun u => ustepValid_iff, ?_⟩
  intro u hu
  obtain ⟨-, hpos, -⟩ := ustepValid_toNat hu
  obtain ⟨hlog, hmax⟩ := ustepEnc_toNat hu
  refine ⟨hmax, ?_, ?_⟩
  · rw [hlog]
    exact Nat.log2_self_le hpos.ne'
  · rw [hlog]
    exact Nat.lt_log2_self

theorem two_pow_le_256 {n : Nat} (h : n ≤ 8) : 2 ^ n ≤ 256 := Nat.pow_le_pow_right (by decide) h

theorem ustepDec_toNat {e : BitVec 4} (he : e.toNat ≤ 8) : (ustepDec e).toNat = 2 ^ e.toNat := by
  have hpow := two_pow_le_256 he
  rw [ustepDec, if_pos he, BitVec.toNat_ofNat, Nat.mod_eq_of_lt (by omega)]

/-- The powers of two up to 256 are positive as signed words. -/
theorem ustepDec_toInt {e : BitVec 4} (he : e.toNat ≤ 8) : (ustepDec e).toInt = 2 ^ e.toNat := by
  have hpow := two_pow_le_256 he
  have hnat := ustepDec_toNat he
  rw [BitVec.toInt_eq_toNat_of_lt (by omega), hnat, Nat.cast_pow, Nat.cast_ofNat]

theorem ustepDec_sentinel {e : BitVec 4} (he : 9 ≤ e.toNat) : ustepDec e = BitVec.ofInt 16 (-1) := by
  rw [ustepDec, if_neg (Nat.not_le.2 he)]

theorem ustepDec_ustepEnc_toNat (hu : ustepValid u = true) : (ustepDec (ustepEnc u)).toNat = 2 ^ Nat.log2 u.toNat := by
  obtain ⟨hlog, hmax⟩ := ustepEnc_toNat hu
  rw [ustepDec_toNat hmax, hlog]

/-- Settles O14: the table of exponents splits at 8 and 9, and the logarithm's power is the largest not above the count. -/
theorem ustepDecSentinel : Obligations.UstepDecSentinel := by
  refine ⟨fun e => ⟨ustepDec_toInt, ?_⟩, ?_⟩
  · intro he
    rw [ustepDec_sentinel he]
    rfl
  · intro u hu
    obtain ⟨-, hpos, -⟩ := ustepValid_toNat hu
    rw [ustepDec_ustepEnc_toNat hu]
    refine ⟨Nat.log2_self_le hpos.ne', ?_⟩
    intro k hk
    exact Nat.pow_le_pow_right (by decide) ((Nat.le_log2 hpos.ne').2 hk)

/-! #### The fields of a register value -/

/-- The torque code replaces the lower byte (R150). -/
theorem torqueIns_joined (h l raw : Byte) : torqueIns (h ++ l) raw = h ++ raw := by
  have hraw : raw.setWidth 16 = 0#8 ++ raw := BitVec.setWidth_eq_append (by decide)
  have hmask : (0xFF00#16) = BitVec.allOnes 8 ++ 0#8 := by decide
  rw [torqueIns, hraw, hmask, BitVec.and_append, BitVec.or_append, BitVec.and_allOnes, BitVec.and_zero,
    BitVec.or_zero, BitVec.zero_or]

theorem torqueIns_eq (v : Reg16) (raw : Byte) : torqueIns v raw = v.extractLsb' 8 8 ++ raw := by
  conv_lhs => rw [← joinBytes_halves v, joinBytes, torqueIns_joined, hiByte]

/-- Settles O15: the insertion puts the code beside the upper byte, and each is read back there. -/
theorem torqueFieldLaws : Obligations.TorqueFieldLaws := by
  intro v raw
  refine ⟨rfl, rfl, ?_, ?_⟩
  · rw [torqueIns_eq, BitVec.extractLsb'_append_eq_left]
  · rw [torqueIns_eq, torqueGet_joined]

/-- A register value by the three fields of R151. -/
theorem ctrl_fields (v : Reg16) : v.extractLsb' 7 9 ++ (ctrlGet v ++ v.extractLsb' 0 3) = v := by
  have hlow : ctrlGet v ++ v.extractLsb' 0 3 = v.extractLsb' 0 7 :=
    BitVec.extractLsb'_append_extractLsb'_eq_extractLsb' (start₁ := 0) rfl
  rw [hlow]
  exact (BitVec.extractLsb'_append_extractLsb'_eq_extractLsb' (start₁ := 0) rfl).trans BitVec.extractLsb'_eq_self

/-- The exponent replaces the middle field (R151). -/
theorem ctrlIns_joined (h : BitVec 9) (m e : BitVec 4) (l : BitVec 3) :
    ctrlIns (h ++ (m ++ l)) e = h ++ (e ++ l) := by
  have hexp : ∀ e : BitVec 4, e.setWidth 16 <<< 3 = 0#9 ++ (e ++ 0#3) := by decide
  have hmask : (0xFF87#16) = BitVec.allOnes 9 ++ (0#4 ++ BitVec.allOnes 3) := by decide
  rw [ctrlIns, hexp, hmask, BitVec.and_append, BitVec.and_append, BitVec.or_append, BitVec.or_append,
    BitVec.and_allOnes, BitVec.and_allOnes, BitVec.and_zero, BitVec.or_zero, BitVec.or_zero, BitVec.zero_or]

theorem ctrlIns_eq (v : Reg16) (e : BitVec 4) :
    ctrlIns v e = v.extractLsb' 7 9 ++ (e ++ v.extractLsb' 0 3) := by
  conv_lhs => rw [← ctrl_fields v, ctrlIns_joined]

/-- Settles O16: the insertion puts the exponent between the two other fields, and each is read back there. -/
theorem ctrlFieldLaws : Obligations.CtrlFieldLaws := by
  intro v e
  refine ⟨rfl, rfl, ?_, ?_, ?_⟩
  · rw [ctrlIns_eq, BitVec.extractLsb'_append_eq_left]
  · rw [ctrlIns_eq, BitVec.extractLsb'_append_eq_of_add_le (by decide), BitVec.extractLsb'_append_eq_right]
  · rw [ctrlIns_eq, ctrlGet, BitVec.extractLsb'_append_eq_of_add_le (by decide), BitVec.extractLsb'_append_eq_left]

end Sys2Proof.Machine

/-! ### O28 to O37, O46: the host operations -/

namespace Sys2Proof.Machine

variable {s t : State} {i : Instr} {pos : Nat} {a : Byte} {v : Reg16} {op : BitVec 4} {k : ResultKind}

/-! #### The power pin -/

/-- Settles O28: the one event before the response writes the power pin, which the chip does not see. -/
theorem enableCurrentDrivesThePowerPin : Obligations.EnableCurrentDrivesThePowerPin := by
  intro b s hs
  refine ⟨_, exec_enableCurrent b s hs, rfl, rfl, rfl, ?_, rfl, rfl, rfl, rfl, rfl, rfl, rfl, rfl,
    accepted_answers (.enableCurrent b) s, fun href => ?_⟩
  · exact List.append_assoc s.trace [.pin .enable b] [.rsp 0 0]
  · exact ⟨(accepted_answers (.enableCurrent b) s).trans href,
      fun x => congrArg (fun c : Chip => c.regs.read x) (accepted_chip_reference (.enableCurrent b) href)⟩

/-! #### What answers a frame of a chip that takes its address -/

theorem readExchange_spec (ht : s.chip.takes a = true) :
    ∃ c h l chip, readExchange a s = .ok ((c, h, l), chip) ∧
      (s.chip.answers = .reference → chip.answers = .reference ∧ chip.regs = s.chip.regs) := by
  obtain ⟨c, h, l, chip, hx, href, -⟩ := exchange_spec s.draws (readCommand a) 0 0 s.chip
    (by rw [takes_readCommand, ht])
  refine ⟨c, h, l, chip, hx, fun hans => ?_⟩
  obtain ⟨hans', hregs, -⟩ := href hans
  exact ⟨hans', hregs.trans (afterFrame_readCommand ..)⟩

theorem writeExchange_spec (v : Reg16) (ht : s.chip.takes a = true) :
    ∃ c h l chip, writeExchange a v s = .ok ((c, h, l), chip) ∧
      (s.chip.answers = .reference → chip.answers = .reference ∧ chip.regs = s.chip.regs.write (addrOf a) v) := by
  obtain ⟨c, h, l, chip, hx, href, -⟩ := exchange_spec s.draws (writeCommand a) (hiByte v) (loByte v) s.chip
    (by rw [takes_writeCommand, ht])
  refine ⟨c, h, l, chip, hx, fun hans => ?_⟩
  obtain ⟨hans', hregs, -⟩ := href hans
  exact ⟨hans', hregs.trans (afterFrame_writeCommand ..)⟩

/-! #### The response as a function of the last frame's result -/

/-- The response data that the 16-bit result of the last frame gives. -/
def ResultKind.ofResult (kq : Nat) (v : Reg16) : ResultKind → Word32
  | .zero => 0
  | .amperes => currentOf kq v
  | .microsteps => microstepsOf v
  | .raw => rawOf v

theorem value_eq_ofResult (kq : Nat) (l : Latches) (k : ResultKind) : k.value kq l = k.ofResult kq l.result := by
  cases k <;> rfl

theorem ofResult_amperes (kq : Nat) (h l : Byte) : ResultKind.amperes.ofResult kq (h ++ l) = ampDec kq l :=
  congrArg (ampDec kq) (torqueGet_joined h l)

theorem ofResult_microsteps (kq : Nat) (h l : Byte) :
    ResultKind.microsteps.ofResult kq (h ++ l) = (ustepDec (l.extractLsb' 3 4)).signExtend 32 :=
  congrArg (fun e => (ustepDec e).signExtend 32) (ctrlGet_joined h l)

theorem afterResponse_rspData (op : BitVec 4) (k : ResultKind) (s : State) :
    (afterResponse op k s).rspData = k.ofResult s.params.kq s.lat.result := value_eq_ofResult ..

theorem afterResponse_trace (op : BitVec 4) (k : ResultKind) (s : State) :
    (afterResponse op k s).trace = s.trace ++ [.rsp op (k.ofResult s.params.kq s.lat.result)] := by
  rw [← value_eq_ofResult]; rfl

/-! #### The operations of one read frame and the response -/

/-- From every ready state `i` is one read frame at `a` and the response. -/
def ReadsOnce (i : Instr) (a : Byte) (op : BitVec 4) (k : ResultKind) : Prop :=
  ∀ s : State, s.ready → exec i s =
    outcomeOf (readExchange a (accepted i s) >>= fun r =>
      .ok (afterResponse op k (afterRead a .low (.running i 9) (accepted i s) r)))

theorem getCurrent_readsOnce : ReadsOnce .getCurrent 1 1 .amperes := exec_getCurrent

theorem getMicrosteps_readsOnce : ReadsOnce .getMicrosteps 0 3 .microsteps := exec_getMicrosteps

theorem getRegister_readsOnce (a : Byte) : ReadsOnce (.getRegister a) a 5 .raw := exec_getRegister a

theorem setCurrent_readsOnce {d : Word32} (hd : ampValid d = false) : ReadsOnce (.setCurrent d) 1 2 .amperes :=
  fun s hs => exec_setCurrent_skip d s hs hd

theorem setMicrosteps_readsOnce {d : Reg16} (hd : ustepValid d = false) :
    ReadsOnce (.setMicrosteps d) 0 4 .microsteps :=
  fun s hs => exec_setMicrosteps_skip d s hs hd

/-- Whatever takes the address, the operation completes, and responds what its frame's two data replies give. -/
theorem ReadsOnce.completes (hi : ReadsOnce i a op k) (hs : s.ready) (ht : s.chip.takes a = true) :
    ∃ c h l t, exec i s = .next t ∧ t.rspValid = true ∧ t.rspData = k.ofResult s.params.kq (h ++ l) ∧
      t.trace = s.trace ++ readEvents a c h l ++ [.rsp op (k.ofResult s.params.kq (h ++ l))] ∧
      Kept s t ∧ BusReleased t ∧ RegsKept s t := by
  obtain ⟨c, h, l, chip, hx, href⟩ := readExchange_spec (s := accepted i s) ((accepted_takes i s a).trans ht)
  refine ⟨c, h, l, _, (hi s hs).trans (outcomeOf_bind_ok _ hx), rfl, afterResponse_rspData .., afterResponse_trace ..,
    ⟨rfl, rfl, rfl, rfl, rfl, rfl, rfl⟩, ⟨rfl, rfl, rfl, rfl, rfl⟩, fun hans => ?_⟩
  obtain ⟨hans', hregs⟩ := href ((accepted_answers i s).trans hans)
  rw [accepted_chip_reference i hans] at hregs
  exact ⟨hans', fun x => congrArg (DevRegs.read · x) hregs⟩

/-- Under the reference device no register changes, and the response is made from the register read (R63). -/
theorem ReadsOnce.reference (hi : ReadsOnce i a op k) (hs : s.ready) (href : s.chip.answers = .reference)
    (ha : named (addrOf a) = true) :
    ∃ t, exec i s = .next t ∧ t.chip.answers = .reference ∧ t.chip.regs = s.chip.regs ∧
      t.rspData = k.ofResult s.params.kq (s.chip.regs.read (addrOf a)) := by
  have hchip := accepted_chip_reference i href
  have hread := readExchange_reference (s := accepted i s) (hchip ▸ href) ha
  rw [hchip] at hread
  refine ⟨_, (hi s hs).trans (outcomeOf_bind_ok _ hread), rfl, rfl, ?_⟩
  exact (afterResponse_rspData ..).trans (congrArg (k.ofResult s.params.kq) (joinBytes_halves _))

/-- In the general model the response is made from the second and the third reply listed (R62). -/
theorem ReadsOnce.oracle {c h l : Byte} {rest : List Byte} (hi : ReadsOnce i a op k) (hs : s.ready)
    (hans : s.chip.answers = .oracle (c :: h :: l :: rest)) :
    ∃ t, exec i s = .next t ∧ t.rspData = k.ofResult s.params.kq (h ++ l) := by
  have hx : readExchange a (accepted i s) = _ := exchange_of_oracle _ _ _ _ ((accepted_answers i s).trans hans)
  exact ⟨_, (hi s hs).trans (outcomeOf_bind_ok _ hx), afterResponse_rspData ..⟩

/-- Settles O29: one read of `TORQUE`, whose low reply is the code. -/
theorem getCurrentDecodesTorque : Obligations.GetCurrentDecodesTorque := by
  intro s hs
  simpa only [ofResult_amperes] using getCurrent_readsOnce.completes hs (takes_named _ 1 rfl)

/-- Settles O31: one read of `CTRL`, in whose low reply the exponent lies. -/
theorem getMicrostepsDecodesCtrl : Obligations.GetMicrostepsDecodesCtrl := by
  intro s hs
  simpa only [ofResult_microsteps] using getMicrosteps_readsOnce.completes hs (takes_named _ 0 rfl)

/-- Settles O33: one read at the operand's address, and the response is what was read. -/
theorem getRegisterPassesTheReadThrough : Obligations.GetRegisterPassesTheReadThrough :=
  fun a _ hs ht => (getRegister_readsOnce a).completes hs ht

/-- Settles O34: one write at the operand's address, at whose end the reference device takes the value; the response is
the echo. -/
theorem setRegisterPassesTheWriteThrough : Obligations.SetRegisterPassesTheWriteThrough := by
  intro a v s hs ht
  obtain ⟨c, h, l, chip, hx, href⟩ := writeExchange_spec (s := accepted (.setRegister a v) s) v
    ((accepted_takes _ s a).trans ht)
  refine ⟨c, h, l, _, (exec_setRegister a v s hs).trans (outcomeOf_bind_ok _ hx), rfl, rfl, rfl,
    ⟨rfl, rfl, rfl, rfl, rfl, rfl, rfl⟩, ⟨rfl, rfl, rfl, rfl, rfl⟩, fun hans => ?_⟩
  obtain ⟨hans', hregs⟩ := href ((accepted_answers _ s).trans hans)
  rw [accepted_chip_reference _ hans] at hregs
  exact ⟨hans', fun x hx => (congrArg (DevRegs.read · x) hregs).trans
    (devRegs_read_write s.chip.regs (addrOf a) x v (named_of_takes hans ht) hx)⟩

/-! #### The operations that read, write and read again -/

/-- The state of `i` after its first read frame. -/
def afterFirstRead (i : Instr) (a : Byte) (s : State) (r : (Byte × Byte × Byte) × Chip) : State :=
  afterRead a .lowAndT (.running i 9) (accepted i s) r

/-- The state of `i` after its write frame. -/
def afterUpdate (i : Instr) (a : Byte) (v : Reg16) (s : State) (r q : (Byte × Byte × Byte) × Chip) : State :=
  afterWrite a v (.running i 19) (afterFirstRead i a s r) q

/-- From every ready state `i` reads the register at the named address `a`, writes back `f kq` of what it read, reads
again and responds (R166, R168). -/
structure Updates (i : Instr) (a : Byte) (w : WriteValue) (f : Nat → Reg16 → Reg16) (op : BitVec 4)
    (k : ResultKind) : Prop where
  named : named (addrOf a) = true
  value (s : State) (r : (Byte × Byte × Byte) × Chip) :
    w.value (afterFirstRead i a s r).lat = f s.params.kq (r.1.2.1 ++ r.1.2.2)
  runs (s : State) (hs : s.ready) : exec i s =
    outcomeOf (updateFrames i 0 a w (accepted i s) >>= fun s' => readExchange a s' >>= fun r =>
      .ok (afterResponse op k (afterRead a .low (.running i 28) s' r)))

theorem setCurrent_updates {d : Word32} (hd : ampValid d = true) :
    Updates (.setCurrent d) 1 .torqueIns (fun kq v => torqueIns v (ampEnc kq d)) 2 .amperes where
  named := rfl
  value s r := congrArg (torqueIns (r.1.2.1 ++ r.1.2.2)) (load_setCurrent_raw hd s.params.kq s.lat)
  runs s hs := exec_setCurrent_write d s hs hd

theorem setMicrosteps_updates {d : Reg16} (hd : ustepValid d = true) :
    Updates (.setMicrosteps d) 0 .ctrlIns (fun _ v => ctrlIns v (ustepEnc d)) 4 .microsteps where
  named := rfl
  value s r := congrArg (ctrlIns (r.1.2.1 ++ r.1.2.2)) (load_setMicrosteps_e hd s.params.kq s.lat)
  runs s hs := exec_setMicrosteps_write d s hs hd

section updates

variable {w : WriteValue} {f : Nat → Reg16 → Reg16}

/-- An operation that updates a register completes when the chip answers its three frames. -/
theorem Updates.next {r q p : (Byte × Byte × Byte) × Chip} (hi : Updates i a w f op k) (hs : s.ready)
    (hr : readExchange a (accepted i s) = .ok r) (hv : f s.params.kq (r.1.2.1 ++ r.1.2.2) = v)
    (hq : writeExchange a v (afterFirstRead i a s r) = .ok q) (hp : readExchange a (afterUpdate i a v s r q) = .ok p) :
    exec i s = .next (afterResponse op k (afterRead a .low (.running i 28) (afterUpdate i a v s r q) p)) := by
  have hvalue : w.value (afterFirstRead i a s r).lat = v := (hi.value s r).trans hv
  have hupdate : updateFrames i 0 a w (accepted i s) = .ok (afterUpdate i a v s r q) := by
    rw [updateFrames, hr, except_bind_ok, Nat.zero_add, ← afterFirstRead, hvalue, hq]
    rfl
  rw [hi.runs s hs, hupdate, except_bind_ok]
  exact outcomeOf_bind_ok _ hp

/-- Whatever answers, the operation completes, and responds what its last frame's two data replies give. -/
theorem Updates.completes (hi : Updates i a w f op k) (hs : s.ready) :
    ∃ c0 h0 l0 c1 h1 l1 c h l t, exec i s = .next t ∧ t.rspValid = true ∧
      t.rspData = k.ofResult s.params.kq (h ++ l) ∧
      t.trace = s.trace ++ (readEvents a c0 h0 l0 ++ writeEvents a (f s.params.kq (h0 ++ l0)) c1 h1 l1) ++
        readEvents a c h l ++ [.rsp op (k.ofResult s.params.kq (h ++ l))] ∧
      Kept s t ∧ BusReleased t := by
  have ht (c : Chip) : c.takes a = true := takes_named c a hi.named
  obtain ⟨c0, h0, l0, chip0, hr, -⟩ := readExchange_spec (ht (accepted i s).chip)
  obtain ⟨c1, h1, l1, chip1, hq, -⟩ := writeExchange_spec (f s.params.kq (h0 ++ l0))
    (ht (afterFirstRead i a s ((c0, h0, l0), chip0)).chip)
  obtain ⟨c, h, l, chip, hp, -⟩ := readExchange_spec
    (ht (afterUpdate i a (f s.params.kq (h0 ++ l0)) s ((c0, h0, l0), chip0) ((c1, h1, l1), chip1)).chip)
  refine ⟨c0, h0, l0, c1, h1, l1, c, h, l, _, hi.next hs hr rfl hq hp, rfl, afterResponse_rspData .., ?_,
    ⟨rfl, rfl, rfl, rfl, rfl, rfl, rfl⟩, ⟨rfl, rfl, rfl, rfl, rfl⟩⟩
  rw [← List.append_assoc s.trace]
  exact afterResponse_trace ..

/-- The reference device takes the value made from its register, no other register changes, and the response is made
from that value (R63). -/
theorem Updates.reference (hi : Updates i a w f op k) (hs : s.ready) (href : s.chip.answers = .reference) :
    ∃ t, exec i s = .next t ∧ t.chip.answers = .reference ∧
      t.chip.regs = s.chip.regs.write (addrOf a) (f s.params.kq (s.chip.regs.read (addrOf a))) ∧
      t.rspData = k.ofResult s.params.kq (f s.params.kq (s.chip.regs.read (addrOf a))) := by
  have ha := hi.named
  have hchip := accepted_chip_reference i href
  have hr := readExchange_reference (s := accepted i s) (hchip ▸ href) ha
  rw [hchip] at hr
  have hv := congrArg (f s.params.kq) (joinBytes_halves (s.chip.regs.read (addrOf a)))
  refine ⟨_, hi.next hs hr hv (writeExchange_reference rfl ha) (readExchange_reference rfl ha), rfl, rfl, ?_⟩
  refine (afterResponse_rspData ..).trans (congrArg (k.ofResult s.params.kq) ((joinBytes_halves _).trans ?_))
  exact (devRegs_read_write _ _ _ _ ha ha).trans (if_pos rfl)

/-- In the general model the response is made from the eighth and the ninth reply listed (R62). -/
theorem Updates.oracle {r0 r1 r2 e0 e1 e2 c h l : Byte} {rest : List Byte} (hi : Updates i a w f op k) (hs : s.ready)
    (hans : s.chip.answers = .oracle (r0 :: r1 :: r2 :: e0 :: e1 :: e2 :: c :: h :: l :: rest)) :
    ∃ t, exec i s = .next t ∧ t.rspData = k.ofResult s.params.kq (h ++ l) := by
  have hr : readExchange a (accepted i s) = _ := exchange_of_oracle _ _ _ _ ((accepted_answers i s).trans hans)
  exact ⟨_, hi.next hs hr rfl (exchange_of_oracle _ _ _ _ rfl) (exchange_of_oracle _ _ _ _ rfl),
    afterResponse_rspData ..⟩

/-- A set operation, which updates the register with a valid operand and only reads it with any other (R163): it
completes with the frames of the one or of the other. -/
theorem setOperation_completes {valid : Bool} {P : Prop} [Decidable P] (hvalid : valid = true ↔ P)
    (hupdate : valid = true → Updates i a w f op k) (hread : valid = false → ReadsOnce i a op k)
    (ha : named (addrOf a) = true) (hs : s.ready) :
    ∃ c0 h0 l0 c1 h1 l1 c h l t, exec i s = .next t ∧ t.rspValid = true ∧
      t.rspData = k.ofResult s.params.kq (h ++ l) ∧
      t.trace = s.trace ++
        (if P then readEvents a c0 h0 l0 ++ writeEvents a (f s.params.kq (h0 ++ l0)) c1 h1 l1 else []) ++
        readEvents a c h l ++ [.rsp op (k.ofResult s.params.kq (h ++ l))] ∧
      Kept s t ∧ BusReleased t := by
  cases valid with
  | true =>
    simp only [if_pos (hvalid.1 rfl)]
    exact (hupdate rfl).completes hs
  | false =>
    obtain ⟨c, h, l, t, hx, hrsp, hdata, htrace, hkept, hbus, -⟩ :=
      (hread rfl).completes hs (takes_named s.chip a ha)
    refine ⟨0, 0, 0, 0, 0, 0, c, h, l, t, hx, hrsp, hdata, ?_, hkept, hbus⟩
    rw [if_neg (mt hvalid.2 Bool.false_ne_true), List.append_nil, htrace]

end updates

/-- Settles O30: `set_current` updates or reads `TORQUE` by its operand, and the last low reply is the code. -/
theorem setCurrentReadsWritesAndRereads : Obligations.SetCurrentReadsWritesAndRereads := by
  intro d s hs
  simpa only [ofResult_amperes] using
    setOperation_completes ampValid_iff setCurrent_updates setCurrent_readsOnce rfl hs

/-- Settles O32: `set_microsteps` updates or reads `CTRL` by its operand, and the last low reply holds the exponent. -/
theorem setMicrostepsReadsWritesAndRereads : Obligations.SetMicrostepsReadsWritesAndRereads := by
  intro d s hs
  simpa only [ofResult_microsteps] using
    setOperation_completes ustepValid_iff setMicrosteps_updates setMicrosteps_readsOnce rfl hs

/-- Settles O35: the device's `TORQUE` takes the code beside its upper byte, and the re-read decodes that code. -/
theorem setCurrentOnTheReferenceDevice : Obligations.SetCurrentOnTheReferenceDevice := by
  intro d s hs href
  constructor
  · intro hd
    obtain ⟨t, hx, hans, hregs, hdata⟩ := (setCurrent_updates hd).reference hs href
    refine ⟨t, hx, hans, ?_, ?_⟩
    · rw [hregs, torqueIns_eq]
      rfl
    · rw [hdata, torqueIns_eq, ofResult_amperes]
  · intro hd
    exact (setCurrent_readsOnce hd).reference hs href rfl

/-- The response to an exponent that was encoded is the power of two itself: the sign bit of the decoding is 0. -/
theorem signExtend_ustepDec_toNat {d : Reg16} (hd : ustepValid d = true) :
    ((ustepDec (ustepEnc d)).signExtend 32).toNat = 2 ^ Nat.log2 d.toNat := by
  obtain ⟨henc, hle⟩ := ustepEnc_toNat hd
  have hdec := ustepDec_ustepEnc_toNat hd
  have hbound : 2 ^ Nat.log2 d.toNat ≤ 256 := two_pow_le_256 (henc ▸ hle)
  have hmsb : (ustepDec (ustepEnc d)).msb = false := by
    rw [BitVec.msb_eq_false_iff_two_mul_lt]
    omega
  rw [BitVec.signExtend_eq_setWidth_of_msb_false hmsb, BitVec.toNat_setWidth, hdec]
  omega

/-- The exponent stands between the two other fields, the three put together from the left. -/
theorem ctrlIns_fields (v : Reg16) (e : BitVec 4) :
    ctrlIns v e = (v.extractLsb' 7 9 ++ e ++ v.extractLsb' 0 3 : Reg16) :=
  (ctrlIns_eq v e).trans BitVec.append_assoc.symm

/-- Settles O36: the device's `CTRL` takes the exponent between its two other fields, and the re-read decodes it. -/
theorem setMicrostepsOnTheReferenceDevice : Obligations.SetMicrostepsOnTheReferenceDevice := by
  intro d s hs href
  constructor
  · intro hd
    obtain ⟨t, hx, hans, hregs, hdata⟩ := (setMicrosteps_updates hd).reference hs href
    refine ⟨t, hx, hans, ?_, ?_⟩
    · rw [hregs, ctrlIns_fields]
      rfl
    · obtain ⟨-, -, -, -, hget⟩ := ctrlFieldLaws (s.chip.regs.read 0) (ustepEnc d)
      have hresult : t.rspData = (ustepDec (ustepEnc d)).signExtend 32 :=
        hdata.trans (congrArg (fun e => (ustepDec e).signExtend 32) hget)
      rw [hresult, signExtend_ustepDec_toNat hd]
  · intro hd
    exact (setMicrosteps_readsOnce hd).reference hs href rfl

/-- Settles O37: of the replies listed only those of the last frame enter the response. -/
theorem confirmingRereadDecidesTheResponse : Obligations.ConfirmingRereadDecidesTheResponse := by
  intro s r0 r1 r2 e0 e1 e2 c h l rest hs
  exact ⟨fun d hd => (setCurrent_updates hd).oracle hs, fun d hd => (setMicrosteps_updates hd).oracle hs,
    fun d hd => (setCurrent_readsOnce hd).oracle hs, fun d hd => (setMicrosteps_readsOnce hd).oracle hs⟩

/-! #### One event of an operation under way -/

/-- Of a busy block the fetch finds the operation under way, or nothing with a meaning (R160, R224). -/
theorem fetch_busy (hs : s.seq = .running i pos) : fetch s = .resume i pos ∨ ∃ r, fetch s = .stop r := by
  simp only [fetch, hs]
  split
  · exact .inr ⟨_, rfl⟩
  · split
    · exact .inr ⟨_, rfl⟩
    · exact .inl rfl

/-- A fine-grained step of a busy block is the next event of its operation. -/
theorem runEvent_of_tick (hs : s.seq = .running i pos) (h : tick s = .next t) : runEvent i pos s = .next t := by
  rw [tick] at h
  rcases fetch_busy hs with hf | ⟨r, hf⟩
  · rwa [hf] at h
  · rw [hf] at h
    cases h

/-- All that one event can do: past the end of the sequence, nothing but idleness; else the primitive, and the next
position. -/
theorem runEvent_cases (h : runEvent i pos s = .next t) :
    ((program i).drop pos = [] ∧ t = { s with seq := .idle }) ∨
      ∃ m rest u, (program i).drop pos = m :: rest ∧ m.run s = .ok u ∧
        t = { u with seq := Seq.after i (pos + 1) rest } := by
  have h := outcomeOf_next h
  cases hm : (program i).drop pos with
  | nil =>
    rw [hm] at h
    cases h
    exact .inl ⟨rfl, rfl⟩
  | cons m rest =>
    rw [hm] at h
    cases hrun : m.run s with
    | error e => simp [hrun] at h
    | ok u =>
      simp only [hrun, except_bind_ok, Except.ok.injEq] at h
      exact .inr ⟨m, rest, u, rfl, hrun, h.symm⟩

/-- Where the sequencer stands after an event. -/
theorem seq_after_cases {m : Micro} {rest : List Micro} (h : (program i).drop pos = m :: rest) :
    (pos + 1 < (program i).length ∧ Seq.after i (pos + 1) rest = .running i (pos + 1)) ∨
      ((program i).length ≤ pos + 1 ∧ Seq.after i (pos + 1) rest = .idle) := by
  have hlen := congrArg List.length h
  rw [List.length_drop, List.length_cons] at hlen
  cases rest with
  | nil =>
    rw [List.length_nil] at hlen
    exact .inr ⟨by omega, rfl⟩
  | cons m' rest =>
    rw [List.length_cons] at hlen
    exact .inl ⟨by omega, rfl⟩

/-- Settles O46: the step is the operation's next event, which keeps the host's list and adds one event to the trace. -/
theorem busyBlockAcceptsNothing : Obligations.BusyBlockAcceptsNothing := by
  intro s t i pos hs h
  rcases runEvent_cases (runEvent_of_tick hs h) with ⟨hend, rfl⟩ | ⟨m, rest, u, hm, hrun, rfl⟩
  · have hlen : (program i).length ≤ pos := List.drop_eq_nil_iff.1 hend
    exact ⟨rfl, .inr ⟨Nat.le_succ_of_le hlen, rfl⟩, fun hlt => absurd hlt (Nat.not_lt.2 hlen)⟩
  · obtain ⟨-, -, hhost, -, htrace⟩ := micro_run_keeps m s u hrun
    exact ⟨hhost, seq_after_cases hm, fun _ => htrace⟩

end Sys2Proof.Machine

/-! ### O49, O50: the invariant -/

namespace Sys2Proof.Machine

variable {s t : State} {i : Instr} {pos : Nat} {m : Micro} {ms ns rest : List Micro} {e : Event}
  {ph ph' ph'' : WirePhase} {later : List HostReq}

/-! #### The event of a micro-step, with its open bytes -/

/-- The event of a micro-step: `tx` for a byte sent that is made from a written value, `rx` for the byte received, `data`
for the response. -/
def Micro.event (tx rx : Byte) (data : Word32) : Micro → Event
  | .busBegin => .busBegin
  | .busEnd => .busEnd
  | .pinWrite p level => .pin p level
  | .xfer (.byte b) _ => .xfer b rx
  | .xfer (.hi _) _ => .xfer tx rx
  | .xfer (.lo _) _ => .xfer tx rx
  | .delayUs us => .delay us
  | .respond op _ => .rsp op data

theorem event_zero (m : Micro) : m.event 0 0 0 = m.sketch := by
  cases m with
  | xfer tx dst => cases tx <;> rfl
  | _ => rfl

theorem event_xfer (l : Latches) (rx : Byte) (data : Word32) (tx : TxByte) (dst : RxDest) :
    (Micro.xfer tx dst).event (tx.value l) rx data = .xfer (tx.value l) rx := by
  cases tx <;> rfl

/-! #### What an event does to the levels that a phase fixes -/

/-- The level of chip-select after an event (R113). -/
def Event.csAfter (cs : Level) : Event → Level
  | .pin p level => if p = .cs then level else cs
  | .busBegin => cs
  | .busEnd => cs
  | .xfer _ _ => cs
  | .delay _ => cs
  | .rsp _ _ => cs

/-- `bus_held` after an event (R28). -/
def Event.busHeldAfter (held : Bool) : Event → Bool
  | .busBegin => true
  | .busEnd => false
  | .pin _ _ => held
  | .xfer _ _ => held
  | .delay _ => held
  | .rsp _ _ => held

/-- The delay timer after an event (R199, assumption 14). -/
def Event.timerAfter : Event → Nat
  | .delay us => us
  | .pin _ _ => 0
  | .busBegin => 0
  | .busEnd => 0
  | .xfer _ _ => 0
  | .rsp _ _ => 0

/-- From the levels of `ph` the event leads to the levels of `ph'`. -/
structure WirePhase.LevelsFollow (ph : WirePhase) (e : Event) (ph' : WirePhase) : Prop where
  cs : ph'.cs = e.csAfter ph.cs
  busHeld : ph'.busHeld = e.busHeldAfter ph.busHeld
  delayTimer : ph'.delayTimer = e.timerAfter

/-- What may happen between frames beside a bus begin leaves chip-select high and the bus free. -/
theorem levelsFollow_of_quiet (h : e.quiet = true) : WirePhase.LevelsFollow .idle e .idle := by
  cases e with
  | pin p level =>
    refine ⟨?_, rfl, rfl⟩
    by_cases hp : p = .cs
    · subst hp
      have hlevel : level = true := h
      rw [hlevel]
      rfl
    · exact (if_neg hp).symm
  | rsp op data => exact ⟨rfl, rfl, rfl⟩
  | busBegin => cases h
  | busEnd => cases h
  | xfer tx rx => cases h
  | delay us => cases h

/-- A byte sent leaves chip-select low and the bus held. -/
theorem levelsFollow_of_sent {tx : Byte} (h : e.sent = some tx) (n : Nat) (read : Bool)
    (hcs : ph.cs = false) (hheld : ph.busHeld = true) : ph.LevelsFollow e (.sent n read) := by
  cases e with
  | xfer tx rx => exact ⟨hcs.symm, hheld.symm, rfl⟩
  | pin p level => cases h
  | busBegin => cases h
  | busEnd => cases h
  | delay us => cases h
  | rsp op data => cases h

/-- In a phase that lets one event alone happen, the levels follow if they do for that event. -/
theorem levelsFollow_of_only {only : Event} [Decidable (e = only)] (hl : ph.LevelsFollow only ph'')
    (h : (if e = only then some ph'' else none) = some ph') : ph.LevelsFollow e ph' := by
  split at h
  next he => subst he; cases h; exact hl
  next => cases h

/-- Where the frame discipline lets an event happen, its effect on the levels is that of the change of phase. -/
theorem levelsFollow_of_next (h : ph.next e = some ph') : ph.LevelsFollow e ph' := by
  cases ph with
  | held => exact levelsFollow_of_only ⟨rfl, rfl, rfl⟩ h
  | latched => exact levelsFollow_of_only ⟨rfl, rfl, rfl⟩ h
  | idle =>
    simp only [WirePhase.next] at h
    split at h
    next he => subst he; cases h; exact ⟨rfl, rfl, rfl⟩
    next =>
      split at h
      next hq => cases h; exact levelsFollow_of_quiet hq
      next => cases h
  | sent n read =>
    simp only [WirePhase.next] at h
    split at h
    · exact levelsFollow_of_only ⟨rfl, rfl, rfl⟩ h
    · exact levelsFollow_of_only ⟨rfl, rfl, rfl⟩ h
  | raised read =>
    simp only [WirePhase.next] at h
    split at h
    · exact levelsFollow_of_only ⟨rfl, rfl, rfl⟩ h
    · exact levelsFollow_of_only ⟨rfl, rfl, rfl⟩ h
  | selected =>
    simp only [WirePhase.next] at h
    split at h
    next tx hsent =>
      split at h
      next => cases h; exact levelsFollow_of_sent hsent _ _ rfl rfl
      next => cases h
    next => cases h
  | settled n read =>
    simp only [WirePhase.next] at h
    split at h
    next tx hsent =>
      split at h
      next => cases h
      next => cases h; exact levelsFollow_of_sent hsent _ _ rfl rfl
    next => cases h

/-! #### What running a micro-step does -/

/-- A micro-step that is no response. -/
def Micro.silent : Micro → Bool
  | .respond _ _ => false
  | .busBegin => true
  | .busEnd => true
  | .pinWrite _ _ => true
  | .xfer _ _ => true
  | .delayUs _ => true

/-- From `s` the event `e` led to `t`: it joins the trace, the levels are as it leaves them, an idle clock is idle again,
and the engine is set to the handle's bus configuration or left alone. -/
structure Happened (e : Event) (s t : State) : Prop where
  trace : t.trace = s.trace ++ [e]
  cs : t.pins.cs = e.csAfter s.pins.cs
  busHeld : t.busHeld = e.busHeldAfter s.busHeld
  delayTimer : t.delayTimer = e.timerAfter
  sck : s.sck = true → t.sck = true
  engine : t.engine = s.engine ∨ t.engine = s.params.handle.bus

/-- What a micro-step does is its event; and only a response presents one. -/
theorem happened_of_run (h : m.run s = .ok t) :
    (∃ tx rx data, Happened (m.event tx rx data) s t) ∧ (m.silent = true → t.rspValid = s.rspValid) := by
  cases m with
  | busBegin => cases h; exact ⟨⟨0, 0, 0, rfl, rfl, rfl, rfl, id, .inr rfl⟩, fun _ => rfl⟩
  | busEnd => cases h; exact ⟨⟨0, 0, 0, rfl, rfl, rfl, rfl, id, .inl rfl⟩, fun _ => rfl⟩
  | delayUs us => cases h; exact ⟨⟨0, 0, 0, rfl, rfl, rfl, rfl, id, .inl rfl⟩, fun _ => rfl⟩
  | respond op k => cases h; exact ⟨⟨0, 0, _, rfl, rfl, rfl, rfl, id, .inl rfl⟩, nofun⟩
  | pinWrite p level =>
    cases h
    refine ⟨⟨0, 0, 0, rfl, ?_, rfl, rfl, id, .inl rfl⟩, fun _ => rfl⟩
    cases p <;> rfl
  | xfer tx dst =>
    simp only [Micro.run, xfer] at h
    cases hans : s.chip.answer s.draws (tx.value s.lat) with
    | error r => rw [hans] at h; cases h
    | ok r =>
      rw [hans] at h
      cases h
      refine ⟨⟨tx.value s.lat, (shiftByte s.engine (tx.value s.lat) r.1).rx, 0, ?_⟩, fun _ => rfl⟩
      rw [event_xfer]
      exact ⟨rfl, rfl, rfl, rfl, fun _ => idleLevel_eq s.engine.clkMode, .inl rfl⟩

/-! #### The wire and the sequencer in step -/

/-- The micro-steps take the wire from one phase to another, whatever the open bytes of their events. -/
inductive InStep : WirePhase → List Micro → WirePhase → Prop where
  | nil (ph : WirePhase) : InStep ph [] ph
  | cons {ph ph' ph'' : WirePhase} {m : Micro} {ms : List Micro}
      (next : ∀ tx rx data, ph.next (m.event tx rx data) = some ph') (rest : InStep ph' ms ph'') :
      InStep ph (m :: ms) ph''

theorem InStep.append (h : InStep ph ms ph') (h' : InStep ph' ns ph'') : InStep ph (ms ++ ns) ph'' := by
  induction h with
  | nil => exact h'
  | cons next _ ih => exact .cons next (ih h')

theorem InStep.of_append (h : InStep ph (ms ++ ns) ph'') : ∃ ph', InStep ph ms ph' ∧ InStep ph' ns ph'' := by
  induction ms generalizing ph with
  | nil => exact ⟨ph, .nil ph, h⟩
  | cons m ms ih =>
    obtain - | ⟨next, hrest⟩ := h
    obtain ⟨ph', hms, hns⟩ := ih hrest
    exact ⟨ph', .cons next hms, hns⟩

theorem InStep.wirePhase_sketch (h : InStep ph ms ph') : wirePhase ph (ms.map Micro.sketch) = some ph' := by
  induction h with
  | nil => rfl
  | cons next _ ih => rw [List.map_cons, ← event_zero, wirePhase_cons_of_next (next 0 0 0), ih]

/-- The command byte says whether the frame is a read (R82). -/
theorem next_commandByte (read : Bool) (a rx : Byte) :
    WirePhase.next .selected (.xfer (commandByte read a) rx) = some (.sent 1 read) := by
  rw [next_selected, commandByte_zeros, if_pos rfl, commandByte_flag]

/-- A read frame goes through its phases, whatever is received (R83, R120). -/
theorem readFrame_inStep (a : Byte) (last : RxDest) : InStep .idle (readFrame a last) .idle := by
  rw [readFrame, readCommand_eq]
  exact .cons (ph' := .held) (fun _ _ _ => rfl) <| .cons (ph' := .selected) (fun _ _ _ => rfl) <|
    .cons (fun _ rx _ => next_commandByte true a rx) <| .cons (ph' := .settled 1 true) (fun _ _ _ => rfl) <|
    .cons (ph' := .sent 2 true) (fun _ _ _ => rfl) <| .cons (ph' := .settled 2 true) (fun _ _ _ => rfl) <|
    .cons (ph' := .sent 3 true) (fun _ _ _ => rfl) <| .cons (ph' := .raised true) (fun _ _ _ => rfl) <|
    .cons (fun _ _ _ => rfl) (.nil .idle)

/-- A write frame goes through its phases, whatever is sent and received in its data phases (R84, R121). -/
theorem writeFrame_inStep (a : Byte) (v : WriteValue) : InStep .idle (writeFrame a v) .idle := by
  rw [writeFrame, writeCommand_eq]
  exact .cons (ph' := .held) (fun _ _ _ => rfl) <| .cons (ph' := .selected) (fun _ _ _ => rfl) <|
    .cons (fun _ rx _ => next_commandByte false a rx) <| .cons (ph' := .settled 1 false) (fun _ _ _ => rfl) <|
    .cons (ph' := .sent 2 false) (fun _ _ _ => rfl) <| .cons (ph' := .settled 2 false) (fun _ _ _ => rfl) <|
    .cons (ph' := .sent 3 false) (fun _ _ _ => rfl) <| .cons (ph' := .raised false) (fun _ _ _ => rfl) <|
    .cons (ph' := .latched) (fun _ _ _ => rfl) <| .cons (fun _ _ _ => rfl) (.nil .idle)

/-- Every operation takes the wire from idle to idle. -/
theorem program_inStep (i : Instr) : InStep .idle (program i) .idle :=
  program_of_parts (Q := fun ms => InStep .idle ms .idle) (.nil .idle) InStep.append readFrame_inStep writeFrame_inStep
    (fun _ => .cons (fun _ _ _ => rfl) (.nil .idle)) (fun _ _ => .cons (fun _ _ _ => rfl) (.nil .idle)) i

/-- An event of an operation takes the wire from the phase of the sequencer's position to that of the next one. -/
theorem next_of_position (hm : (program i).drop pos = m :: rest) (hph : (Seq.running i pos).phase = some ph) :
    ∃ ph', (∀ tx rx data, ph.next (m.event tx rx data) = some ph') ∧
      (Seq.after i (pos + 1) rest).phase = some ph' := by
  have hwhole := program_inStep i
  rw [← List.take_append_drop pos (program i), hm] at hwhole
  obtain ⟨ph₀, htake, hdrop⟩ := hwhole.of_append
  have hph₀ : ph₀ = ph := Option.some.inj (htake.wirePhase_sketch.symm.trans hph)
  subst hph₀
  cases hdrop with
  | @cons _ ph' _ _ _ next hrest =>
    refine ⟨ph', next, ?_⟩
    cases rest with
    | nil => cases hrest; rfl
    | cons m' rest =>
      have htake' : (program i).take (pos + 1) = (program i).take pos ++ [m] := by
        rw [List.take_add_one, ← List.head?_drop, hm]
        rfl
      rw [Seq.after, Seq.phase, htake']
      exact (htake.append (.cons next (.nil ph'))).wirePhase_sketch

/-- A response comes at the end of its operation alone (R160). -/
theorem program_dropLast_silent (i : Instr) : (program i).dropLast.all Micro.silent = true := by
  cases i with
  | setCurrent d =>
    rw [program, setCurrentProgram]
    split <;> rfl
  | setMicrosteps d =>
    rw [program, setMicrostepsProgram]
    split <;> rfl
  | _ => rfl

/-- An event after which the operation goes on is no response. -/
theorem silent_of_not_last (hm : (program i).drop pos = m :: rest) (hrest : rest ≠ []) : m.silent = true := by
  have hall := program_dropLast_silent i
  rw [← List.take_append_drop pos (program i), hm, List.dropLast_append_cons,
    List.dropLast_cons_of_ne_nil hrest] at hall
  exact List.all_eq_true.1 hall m (by simp)

/-! #### The invariant under what a fine-grained step can be -/

theorem bus_of_params_wf (h : s.params.wf = true) : s.params.handle.bus = Config.buscfg := by
  simp only [Params.wf, Handle.wf, Bool.and_eq_true, beq_iff_eq] at h
  obtain ⟨⟨-, hbus⟩, -⟩ := h
  exact hbus

/-- Time passing, with whatever the host does next. -/
theorem dropResponse_invariant (hinv : Invariant s) (later : List HostReq) :
    Invariant (dropResponse { s with host := later }) := by
  obtain ⟨hparams, hmode1, hmode2, hsck, hengine, hrange, hwire, -⟩ := hinv
  exact ⟨hparams, hmode1, hmode2, hsck, hengine, hrange, hwire, fun _ => rfl⟩

/-- A reset puts every part that the invariant speaks of at the level of Table S4 (R220). -/
theorem applyReset_invariant (hw : s.params.wf = true) (later : List HostReq) :
    Invariant (applyReset { s with host := later }) where
  params := hw
  mode1 := rfl
  mode2 := rfl
  sck := applyReset_sck _
  engine := bus_of_params_wf hw
  inRange := trivial
  wire := ⟨.idle, rfl, rfl, rfl, rfl, rfl⟩
  response := fun h => absurd rfl h

/-- An instruction is accepted by a ready block alone (R25, R160). -/
theorem accepted_of_accept (h : accept i s = .ok t) : s.ready ∧ t = accepted i s := by
  simp only [accept] at h
  split at h
  next => cases h
  next hw =>
    split at h
    next => cases h
    next hidle =>
      cases hs : s.seq with
      | running j p => simp [State.busy, hs] at hidle
      | idle =>
        cases h
        exact ⟨⟨by simpa using hw, hs⟩, rfl⟩

/-- An acceptance puts the sequencer at the start of an operation, where the wire is idle as before (R160). -/
theorem accept_invariant (hinv : Invariant s) (h : accept i { s with host := later } = .ok t) : Invariant t := by
  obtain ⟨⟨-, hseq⟩, rfl⟩ := accepted_of_accept h
  obtain ⟨hparams, hmode1, hmode2, hsck, hengine, -, ⟨ph, hph, hwire⟩, -⟩ := hinv
  have hstart : (Seq.running i 0).phase = some ph := (congrArg Seq.phase hseq).symm.trans hph
  exact ⟨hparams, hmode1, hmode2, hsck, hengine, program_length_pos i, ⟨ph, hstart, hwire⟩, fun _ => rfl⟩

/-- An event of an operation under way takes the state to the phase of the next position. -/
theorem runEvent_invariant (hinv : Invariant s) (hs : s.seq = .running i pos) (h : runEvent i pos s = .next t) :
    Invariant t := by
  obtain ⟨hparams, hmode1, hmode2, hsck, hengine, hrange, ⟨ph, hph, htrace, hcs, hheld, -⟩, hrsp⟩ := hinv
  rw [hs] at hrange hph
  have hmodes := runEvent_keeps_modes h
  rcases runEvent_cases h with ⟨hend, -⟩ | ⟨m, rest, u, hm, hrun, rfl⟩
  · exact absurd hrange (Nat.not_lt.2 (List.drop_eq_nil_iff.1 hend))
  obtain ⟨⟨tx, rx, data, hev⟩, hsilent⟩ := happened_of_run hrun
  obtain ⟨ph', hnext, hph'⟩ := next_of_position hm hph
  have hlevels := levelsFollow_of_next (hnext tx rx data)
  exact
    { params := hmodes.params ▸ hparams
      mode1 := hmodes.mode1.trans hmode1
      mode2 := hmodes.mode2.trans hmode2
      sck := hev.sck hsck
      engine := hev.engine.elim (·.trans hengine) (·.trans (bus_of_params_wf hparams))
      inRange := by
        rcases seq_after_cases hm with ⟨hlt, hseq⟩ | ⟨-, hseq⟩
        · exact hseq.symm ▸ hlt
        · exact hseq.symm ▸ trivial
      wire := by
        refine ⟨ph', hph', ?_, ?_, ?_, hev.delayTimer.trans hlevels.delayTimer.symm⟩
        · rw [hev.trace, wirePhase_append, htrace, Option.bind_some, wirePhase_cons_of_next (hnext tx rx data),
            wirePhase]
        · rw [hev.cs, hcs, hlevels.cs]
        · rw [hev.busHeld, hheld, hlevels.busHeld]
      response := by
        intro hbusy
        have hrest : rest ≠ [] := by
          rintro rfl
          exact hbusy rfl
        exact (hsilent (silent_of_not_last hm hrest)).trans (hrsp (by rw [hs]; nofun)) }

/-- Settles O50: by what the fetch finds; an event of an operation moves the wire and the sequencer in step. -/
theorem tickKeepsTheInvariant : Obligations.TickKeepsTheInvariant := by
  intro s t hinv h
  have hfound := fetch_finds s
  unfold tick at h
  generalize fetch s = found at h hfound
  cases hfound with
  | stop r => cases h
  | timePasses later => cases h; exact dropResponse_invariant hinv later
  | reset later _ => cases h; exact applyReset_invariant hinv.params later
  | resume i pos _ _ hs => exact runEvent_invariant hinv hs h
  | instr i later => exact accept_invariant hinv (outcomeOf_next h)

theorem ticks_invariant (n : Nat) (hinv : Invariant s) (h : ticks n s = .next t) : Invariant t := by
  induction n generalizing s with
  | zero => cases h; exact hinv
  | succ n ih =>
    rw [ticks_succ] at h
    cases htick : tick s with
    | next u =>
      rw [htick] at h
      exact ih (tickKeepsTheInvariant s u hinv htick) h
    | fault r => cases r
    | refused r => rw [htick] at h; cases h

/-- Settles O49: a step is a number of fine-grained steps, each of which keeps the invariant. -/
theorem stepKeepsTheInvariant : Obligations.StepKeepsTheInvariant :=
  fun s _ hinv h => ticks_invariant (ticksOf s) hinv ((stepIsTheSequencerRunToItsEnd s).trans h)

end Sys2Proof.Machine

/-! ### O38: every instruction completes -/

namespace Sys2Proof.Machine

variable {s : State} {a : Byte}

/-- Every chip but the reference device at an unnamed address gives a frame a meaning (R62, R63). -/
theorem takes_of_not_reference_or_named (h : s.chip.answers ≠ .reference ∨ (a.extractLsb' 0 4).toNat < 8) :
    s.chip.takes a = true := by
  rcases h with h | h
  · unfold Chip.takes
    split
    next href => exact absurd href h
    next => rfl
    next => rfl
  · exact takes_named _ a ((named_iff (addrOf a)).2 h)

/-- Settles O38: the chip answers every frame that the instruction sends. -/
theorem noOperandStopsTheBlock : Obligations.NoOperandStopsTheBlock := by
  intro i s hs hprem
  cases i with
  | enableCurrent b =>
    obtain ⟨t, ht, -⟩ := enableCurrentDrivesThePowerPin b s hs
    exact ⟨t, ht⟩
  | getCurrent =>
    obtain ⟨-, -, -, t, ht, -⟩ := getCurrentDecodesTorque s hs
    exact ⟨t, ht⟩
  | getMicrosteps =>
    obtain ⟨-, -, -, t, ht, -⟩ := getMicrostepsDecodesCtrl s hs
    exact ⟨t, ht⟩
  | setCurrent d =>
    obtain ⟨-, -, -, -, -, -, -, -, -, t, ht, -⟩ := setCurrentReadsWritesAndRereads d s hs
    exact ⟨t, ht⟩
  | setMicrosteps d =>
    obtain ⟨-, -, -, -, -, -, -, -, -, t, ht, -⟩ := setMicrostepsReadsWritesAndRereads d s hs
    exact ⟨t, ht⟩
  | getRegister a =>
    have htakes := takes_of_not_reference_or_named (hprem.imp_right fun h => h.1 a (.inl rfl))
    obtain ⟨-, -, -, t, ht, -⟩ := getRegisterPassesTheReadThrough a s hs htakes
    exact ⟨t, ht⟩
  | tRead a =>
    have htakes := takes_of_not_reference_or_named (hprem.imp_right fun h => h.1 a (.inr rfl))
    obtain ⟨-, -, -, t, ht, -⟩ := transportReadRunsItsFrame a s hs htakes
    exact ⟨t, ht⟩
  | setRegister a v =>
    have htakes := takes_of_not_reference_or_named (hprem.imp_right fun h => h.2 a v (.inl rfl))
    obtain ⟨-, -, -, t, ht, -⟩ := setRegisterPassesTheWriteThrough a v s hs htakes
    exact ⟨t, ht⟩
  | tWrite a v =>
    have htakes := takes_of_not_reference_or_named (hprem.imp_right fun h => h.2 a v (.inr rfl))
    obtain ⟨-, -, -, t, ht, -⟩ := transportWriteRunsItsFrame a v s hs htakes
    exact ⟨t, ht⟩

end Sys2Proof.Machine

/-! ### O40: the motor power -/

namespace Sys2Proof.Machine

variable {s t : State} {i : Instr} {pos : Nat} {m : Micro} {ms : List Micro}

/-- The same state with `ENABLE` at the given level. -/
def State.withEnable (b : Level) (s : State) : State := { s with pins := { s.pins with enable := b } }

/-- A micro-step that is no write of `ENABLE`. -/
def Micro.sparesEnable : Micro → Bool
  | .pinWrite p _ => p != .enable
  | .busBegin => true
  | .busEnd => true
  | .xfer _ _ => true
  | .delayUs _ => true
  | .respond _ _ => true

/-- Such a micro-step does the same at either level of `ENABLE`. -/
theorem run_withEnable (b : Level) (s : State) (hm : m.sparesEnable = true) :
    m.run (s.withEnable b) = (m.run s).map (State.withEnable b) := by
  cases m with
  | busBegin => rfl
  | busEnd => rfl
  | delayUs us => rfl
  | respond op k => rfl
  | pinWrite p level =>
    cases p with
    | enable => cases hm
    | mode1 => rfl
    | mode2 => rfl
    | cs => rfl
  | xfer tx dst =>
    have hans : (s.withEnable b).chip.answer (s.withEnable b).draws (tx.value (s.withEnable b).lat) =
      s.chip.answer s.draws (tx.value s.lat) := rfl
    simp only [Micro.run, xfer, hans]
    cases s.chip.answer s.draws (tx.value s.lat) with
    | error r => rfl
    | ok r => rfl

theorem runFrom_withEnable (b : Level) (i : Instr) (pos : Nat) (s : State) (hms : ms.all Micro.sparesEnable = true) :
    runFrom i pos ms (s.withEnable b) = (runFrom i pos ms s).map (State.withEnable b) := by
  induction ms generalizing pos s with
  | nil => rfl
  | cons m rest ih =>
    obtain ⟨hm, hrest⟩ : m.sparesEnable = true ∧ rest.all Micro.sparesEnable = true := by simpa using hms
    rw [runFrom, runFrom, run_withEnable b s hm]
    cases m.run s with
    | error r => rfl
    | ok u => exact ih (pos + 1) { u with seq := Seq.after i (pos + 1) rest } hrest

/-- No instruction but `enable_current` writes `ENABLE`. -/
theorem program_sparesEnable (hi : ∀ e, i ≠ .enableCurrent e) : (program i).all Micro.sparesEnable = true := by
  cases i with
  | enableCurrent b => exact absurd rfl (hi b)
  | setCurrent d =>
    rw [program, setCurrentProgram]
    split <;> rfl
  | setMicrosteps d =>
    rw [program, setMicrostepsProgram]
    split <;> rfl
  | _ => rfl

theorem exec_withEnable (b : Level) (hi : ∀ e, i ≠ .enableCurrent e) (h : exec i s = .next t) :
    exec i (s.withEnable b) = .next (t.withEnable b) := by
  have hs := ready_of_exec i s t h
  have hs' : (s.withEnable b).ready := hs
  rw [exec_program, runInstr, accept_ready i _ hs, except_bind_ok] at h
  rw [exec_program, runInstr, accept_ready i _ hs', except_bind_ok]
  have hrun := runFrom_withEnable b i 0 (accepted i s) (program_sparesEnable hi)
  rw [outcomeOf_next h] at hrun
  exact congrArg outcomeOf hrun

/-- Settles O40: no micro-step of the instruction writes `ENABLE` or looks at it. That it is left as it was is the
case of its own level. -/
theorem motorPowerChangesNothingElse : Obligations.MotorPowerChangesNothingElse := by
  intro i s t b hi h
  refine ⟨?_, exec_withEnable b hi h⟩
  have hown : exec i s = .next (t.withEnable s.pins.enable) := exec_withEnable s.pins.enable hi h
  rw [h] at hown
  injection hown with hown
  rw [hown]
  rfl

end Sys2Proof.Machine

/-! ### O42: the durations of Table T1 -/

namespace Sys2Proof.Machine

variable {s t : State} {i : Instr} {pos : Nat} {ms : List Micro}

theorem micros_cons (e : Event) (es : List Event) : micros (e :: es) = e.micros + micros es := rfl

theorem micros_append (es fs : List Event) : micros (es ++ fs) = micros es + micros fs := by
  rw [micros, List.map_append, List.sum_append, micros, micros]

/-- The least time of an event does not depend on its open bytes (R232). -/
theorem micros_event (tx rx : Byte) (data : Word32) (m : Micro) : (m.event tx rx data).micros = m.sketch.micros := by
  cases m with
  | xfer tx dst => cases tx <;> rfl
  | _ => rfl

/-- The least time of some micro-steps: that of the events they run. -/
def Micro.time (ms : List Micro) : Nat := micros (ms.map Micro.sketch)

theorem time_append (ms ns : List Micro) : Micro.time (ms ++ ns) = Micro.time ms + Micro.time ns := by
  rw [Micro.time, List.map_append, micros_append, Micro.time, Micro.time]

/-- Micro-steps that ran to their end added events of their own least time, whatever was received. -/
theorem runFrom_micros (h : runFrom i pos ms s = .ok t) :
    ∃ es, t.trace = s.trace ++ es ∧ micros es = Micro.time ms := by
  induction ms generalizing pos s with
  | nil => cases h; exact ⟨[], (List.append_nil _).symm, rfl⟩
  | cons m rest ih =>
    rw [runFrom] at h
    cases hm : m.run s with
    | error e => rw [hm] at h; cases h
    | ok u =>
      rw [hm, except_bind_ok] at h
      obtain ⟨⟨tx, rx, data, hev⟩, -⟩ := happened_of_run hm
      obtain ⟨es, htrace, hes⟩ := ih h
      refine ⟨m.event tx rx data :: es, ?_, ?_⟩
      · rw [htrace, List.append_cons, ← hev.trace]
      · rw [micros_cons, micros_event, hes]
        rfl

/-- The events of a completed instruction take the least time of its micro-sequence; the acceptance adds none. -/
theorem exec_micros (h : exec i s = .next t) : micros (newEvents s t) = Micro.time (program i) := by
  have hs := ready_of_exec i s t h
  rw [exec_program, runInstr, accept_ready i s hs, except_bind_ok] at h
  obtain ⟨es, htrace, hes⟩ := runFrom_micros (outcomeOf_next h)
  rw [newEvents_of_trace (s := s) htrace, hes]

/-- Three bytes and two delays (R120). -/
theorem time_readFrame (a : Byte) (last : RxDest) : Micro.time (readFrame a last) = 424 := by
  simp [Micro.time, micros, readFrame, Micro.sketch, Event.micros, Config.tSettle]

/-- Three bytes and three delays (R121). -/
theorem time_writeFrame (a : Byte) (v : WriteValue) : Micro.time (writeFrame a v) = 624 := by
  cases v <;> simp [Micro.time, micros, writeFrame, Micro.sketch, Event.micros, Config.tSettle, Config.tPost]

/-- A response takes no time. -/
theorem time_append_respond (ms : List Micro) (op : BitVec 4) (k : ResultKind) :
    Micro.time (ms ++ [.respond op k]) = Micro.time ms := time_append ms _

/-- A set operation: two reads and a write where the operand is valid, one read where it is not (R163). -/
theorem time_setOperation (valid : Bool) (a : Byte) (w : WriteValue) (op : BitVec 4) (k : ResultKind) :
    Micro.time ((if valid then readFrame a .lowAndT ++ writeFrame a w else []) ++ readFrame a .low ++ [.respond op k]) =
      if valid then 1472 else 424 := by
  rw [time_append_respond, time_append, time_readFrame]
  cases valid with
  | true => rw [if_pos rfl, if_pos rfl, time_append, time_readFrame, time_writeFrame]
  | false => rfl

/-- Settles O42: an instruction takes the time of its micro-sequence, which is that of its frames. -/
theorem durationsOfTableT1 : Obligations.DurationsOfTableT1 := by
  intro s t
  have read : ∀ a op k, Micro.time (readFrame a .low ++ [.respond op k]) = 424 := fun a op k =>
    (time_append_respond ..).trans (time_readFrame a .low)
  have write : ∀ a v op k, Micro.time (writeFrame a v ++ [.respond op k]) = 624 := fun a v op k =>
    (time_append_respond ..).trans (time_writeFrame a v)
  refine ⟨?tRead, ?tWrite, ?getCurrent, ?getMicrosteps, ?getRegister, ?setRegister, ?setCurrent, ?setMicrosteps,
    ?enableCurrent⟩
  case tRead => exact fun a h => (exec_micros h).trans (time_readFrame a .low)
  case tWrite => exact fun a v h => (exec_micros h).trans (time_writeFrame a (.word v))
  case getCurrent => exact fun h => (exec_micros h).trans (read ..)
  case getMicrosteps => exact fun h => (exec_micros h).trans (read ..)
  case getRegister => exact fun a h => (exec_micros h).trans (read ..)
  case setRegister => exact fun a v h => (exec_micros h).trans (write ..)
  case setCurrent => exact fun d h => (exec_micros h).trans (time_setOperation ..)
  case setMicrosteps => exact fun d h => (exec_micros h).trans (time_setOperation ..)
  case enableCurrent => exact fun b h => (exec_micros h).trans rfl

end Sys2Proof.Machine

/-! ### O43 to O45, O48: reset -/

namespace Sys2Proof.Machine

variable {s : State} {i : Instr} {pos : Nat} {later : List HostReq}

/-! #### Power-on is a reset -/

/-- The state after reset is one that `applyReset` leaves, its free values being draw 0 (R220, R224). -/
theorem reset_eq_applyReset : State.reset = applyReset { State.reset with draws := 0 } := (rfl)

/-- Registers given by their numbers read back by the low three address bits (Table M1). -/
theorem read_byNumber (f : BitVec 3 → Reg16) (a : BitVec 4) :
    (DevRegs.byNumber f).read a = f (a.extractLsb' 0 3) := by
  have key : ∀ x : BitVec 3, x = 0 ∨ x = 1 ∨ x = 2 ∨ x = 3 ∨ x = 4 ∨ x = 5 ∨ x = 6 ∨ x = 7 := by decide
  rw [DevRegs.read]
  rcases key (a.extractLsb' 0 3) with h | h | h | h | h | h | h | h <;> rw [h] <;> rfl

/-- Settles O43: Table S4 is written out in the reset state; the registers were given by their numbers. -/
theorem resetEstablishesTheStartupState : Obligations.ResetEstablishesTheStartupState :=
  ⟨rfl, rfl, rfl, rfl, .refl _, rfl, rfl, rfl, rfl, rfl, rfl, rfl, rfl, read_byNumber Config.devInit⟩

/-- Settles O48: the state after reset is one that a reset leaves, with the default parameters. -/
theorem resetSatisfiesTheInvariant : Obligations.ResetSatisfiesTheInvariant := by
  have hleft : Invariant (applyReset { State.reset with draws := 0 }) :=
    applyReset_invariant (s := { State.reset with draws := 0 }) (by decide) []
  rwa [← reset_eq_applyReset] at hleft

/-! #### Reset of an idle block -/

/-- The reset input comes before the host's list (R224). -/
theorem fetch_resetLine (h : s.ready) (hr : s.resetLine = true) : fetch s = .settled (applyReset s) := by
  obtain ⟨hw, hs⟩ := h
  simp [fetch, hw, hs, hr]

theorem fetchIdle_reset (h : s.host = .reset :: later) :
    fetchIdle s = .settled (applyReset { s with host := later }) := by
  simp [fetchIdle, h]

/-- A reset asked for in either way is applied, and leaves the rest of the host's list. -/
theorem step_reset (h : s.ready)
    (hr : (s.resetLine = true ∧ later = s.host) ∨ (s.resetLine = false ∧ s.host = .reset :: later)) :
    step s = .next (applyReset { s with host := later }) := by
  rcases hr with ⟨hline, rfl⟩ | ⟨hline, hhost⟩
  · exact step_of_fetch_settled (fetch_resetLine h hline)
  · exact step_of_fetch_settled ((fetch_ready h hline).trans (fetchIdle_reset hhost))

/-- Settles O44: the step applies the reset, which sets the engine to the one bus configuration of legal parameters. -/
theorem resetWhileIdleReestablishes : Obligations.ResetWhileIdleReestablishes := by
  intro s later hs hr
  exact ⟨_, step_reset hs hr, rfl, .refl _, rfl, bus_of_params_wf hs.1, applyReset_sck _, rfl, rfl, rfl, rfl, rfl, rfl,
    rfl⟩

/-! #### Reset of a busy block -/

theorem fetch_resetWhileBusy (hw : s.params.wf = true) (hs : s.seq = .running i pos) (hr : s.resetLine = true) :
    fetch s = .stop .resetWhileBusy := by
  simp [fetch, hw, hs, hr]

theorem tick_of_fetch_stop {r : Refusal} (h : fetch s = .stop r) : tick s = .refused r := by rw [tick, h]

/-- Settles O45: the fetch, which both kinds of step begin with, stops. -/
theorem resetWhileBusyIsRefused : Obligations.ResetWhileBusyIsRefused := by
  intro s i pos hw hs hr
  have hstop := fetch_resetWhileBusy hw hs hr
  exact ⟨step_of_fetch_stop hstop, tick_of_fetch_stop hstop⟩

end Sys2Proof.Machine
